-- ==== Sys2Proof/Word.lean ====
section
/-! DEFINITION. The words of the machine: the two widths the spec gives its values (rules R5, R6, R8).
Every value is unsigned; every widening is a zero extension (rule R8). -/

namespace Sys2Proof

/-- A byte: the width of a general register, of a memory byte and of a timer (rule R5). -/
abbrev Byte := BitVec 8

/-- A 16-bit word: the width of `I`, of `PC`, of a call-stack slot and of an instruction word (rules R5, R6). -/
abbrev Word := BitVec 16

end Sys2Proof
end

