-- ==== Sys2Proof/Syntax.lean ====
section
/-! DEFINITION. The instructions: one constructor per row of spec/opcode_table.json, in the order of rule R96.
A constructor holds every field of its word that the row does not fix, those the operation ignores too
(the last nibble of `5xyn` and `9xyn`, the `y` of `8xy6` and `8xyE`, rule R101), so that a word and its
instruction determine each other. -/

namespace Sys2Proof

/-- The index of a general register, the fields `x` and `y` (rules R10, R20): all 16 values are legal (rule R94). -/
abbrev Reg := Fin 16

/-- The field `n` (rule R10): a count 0 to 15 in `Dxyn`, ignored in `5xyn` and `9xyn`. -/
abbrev Nibble := Fin 16

/-- `VF`, the register that doubles as the flag (rule R22). -/
abbrev VF : Reg := 15

/-- The 34 instructions (rules R2, R96). -/
inductive Instr where
  /-- `00E0`, `CLS` (R181). -/
  | cls
  /-- `00EE`, `RET` (R123). -/
  | ret
  /-- `1nnn`, `JP nnn` (R121). -/
  | jp (nnn : BitVec 12)
  /-- `2nnn`, `CALL nnn` (R122). -/
  | call (nnn : BitVec 12)
  /-- `3xnn`, `SE Vx, nn` (R125). -/
  | seImm (x : Reg) (nn : Byte)
  /-- `4xnn`, `SNE Vx, nn` (R126). -/
  | sneImm (x : Reg) (nn : Byte)
  /-- `5xyn`, `SE Vx, Vy` (R127); the nibble `n` is ignored (R101). -/
  | seReg (x y : Reg) (n : Nibble)
  /-- `6xnn`, `LD Vx, nn` (R140). -/
  | ldImm (x : Reg) (nn : Byte)
  /-- `7xnn`, `ADD Vx, nn` (R141). -/
  | addImm (x : Reg) (nn : Byte)
  /-- `8xy0`, `LD Vx, Vy` (R142). -/
  | ldReg (x y : Reg)
  /-- `8xy1`, `OR Vx, Vy` (R143). -/
  | orReg (x y : Reg)
  /-- `8xy2`, `AND Vx, Vy` (R144). -/
  | andReg (x y : Reg)
  /-- `8xy3`, `XOR Vx, Vy` (R145). -/
  | xorReg (x y : Reg)
  /-- `8xy4`, `ADD Vx, Vy` (R146). -/
  | addReg (x y : Reg)
  /-- `8xy5`, `SUB Vx, Vy` (R147). -/
  | subReg (x y : Reg)
  /-- `8xy6`, `SHR Vx` (R148); the field `y` is ignored (R101). -/
  | shr (x y : Reg)
  /-- `8xy7`, `SUBN Vx, Vy` (R149). -/
  | subn (x y : Reg)
  /-- `8xyE`, `SHL Vx` (R150); the field `y` is ignored (R101). -/
  | shl (x y : Reg)
  /-- `9xyn`, `SNE Vx, Vy` (R128); the nibble `n` is ignored (R101). -/
  | sneReg (x y : Reg) (n : Nibble)
  /-- `Annn`, `LD I, nnn` (R161). -/
  | ldI (nnn : BitVec 12)
  /-- `Bnnn`, `JP V0, nnn` (R124). -/
  | jpV0 (nnn : BitVec 12)
  /-- `Cxnn`, `RND Vx, nn` (R152). -/
  | rnd (x : Reg) (nn : Byte)
  /-- `Dxyn`, `DRW Vx, Vy, n` (R182). -/
  | drw (x y : Reg) (n : Nibble)
  /-- `Ex9E`, `SKP Vx` (R191). -/
  | skp (x : Reg)
  /-- `ExA1`, `SKNP Vx` (R192). -/
  | sknp (x : Reg)
  /-- `Fx07`, `LD Vx, DT` (R194). -/
  | ldVxDT (x : Reg)
  /-- `Fx0A`, `LD Vx, K` (R193). -/
  | ldVxK (x : Reg)
  /-- `Fx15`, `LD DT, Vx` (R195). -/
  | ldDTVx (x : Reg)
  /-- `Fx18`, `LD ST, Vx` (R196). -/
  | ldSTVx (x : Reg)
  /-- `Fx1E`, `ADD I, Vx` (R162). -/
  | addI (x : Reg)
  /-- `Fx29`, `LD F, Vx` (R163). -/
  | ldF (x : Reg)
  /-- `Fx33`, `LD B, Vx` (R164). -/
  | ldB (x : Reg)
  /-- `Fx55`, `LD [I], Vx` (R165). -/
  | storeRegs (x : Reg)
  /-- `Fx65`, `LD Vx, [I]` (R166). -/
  | loadRegs (x : Reg)
deriving DecidableEq, Repr

end Sys2Proof
end

