-- ==== Sys2Proof/Decode.lean ====
section
/-! DEFINITION. Fields, decoding (total on any word and on any bytes, rejecting by name), encoding, and the opcode
table of rule R96 as data. Rules R90 to R101. -/

namespace Sys2Proof

/-! ## Fields (rules R10, R92) -/

/-- `cat = w[15:12]`. -/
def fieldCat (w : Word) : Fin 16 := (w.extractLsb' 12 4).toFin
/-- `x = w[11:8]`. -/
def fieldX (w : Word) : Reg := (w.extractLsb' 8 4).toFin
/-- `y = w[7:4]`. -/
def fieldY (w : Word) : Reg := (w.extractLsb' 4 4).toFin
/-- `n = w[3:0]`. -/
def fieldN (w : Word) : Nibble := (w.extractLsb' 0 4).toFin
/-- `nn = w[7:0]`. -/
def fieldNN (w : Word) : Byte := w.extractLsb' 0 8
/-- `nnn = w[11:0]`. -/
def fieldNNN (w : Word) : BitVec 12 := w.extractLsb' 0 12

/-! ## Widenings -/

/-- `zext_16(v)` for a byte (rule R9). -/
abbrev byteZext16 (b : BitVec 8) : Word := b.setWidth 16

/-- `zext_16(nnn)` for a 12-bit address (rule R94). -/
abbrev addrZext16 (nnn : BitVec 12) : Word := nnn.setWidth 16

/-! ## Decoding (rule R95) -/

/-- Why bytes are no instruction. The first four are the illegal words of rules R97 to R99. -/
inductive Reject where
  /-- A category-0 word other than `0x00E0` and `0x00EE` (R97). -/
  | category0
  /-- A category-8 word with an unmapped `n` (R98). -/
  | category8
  /-- A category-E word with an unmapped `nn` (R99). -/
  | categoryE
  /-- A category-F word with an unmapped `nn` (R99). -/
  | categoryF
  /-- Fewer than the two bytes an instruction has (R90). -/
  | truncated
deriving DecidableEq, Repr

/-- Category 0: the whole word is matched (rule R97). -/
def decodeCat0 (w : Word) : Except Reject Instr :=
  if w = 0x00E0 then .ok .cls
  else if w = 0x00EE then .ok .ret
  else .error .category0

/-- Category 8: the selector is `n` (rule R98). -/
def decodeCat8 (w : Word) : Except Reject Instr :=
  if fieldN w = 0x0 then .ok (.ldReg (fieldX w) (fieldY w))
  else if fieldN w = 0x1 then .ok (.orReg (fieldX w) (fieldY w))
  else if fieldN w = 0x2 then .ok (.andReg (fieldX w) (fieldY w))
  else if fieldN w = 0x3 then .ok (.xorReg (fieldX w) (fieldY w))
  else if fieldN w = 0x4 then .ok (.addReg (fieldX w) (fieldY w))
  else if fieldN w = 0x5 then .ok (.subReg (fieldX w) (fieldY w))
  else if fieldN w = 0x6 then .ok (.shr (fieldX w) (fieldY w))
  else if fieldN w = 0x7 then .ok (.subn (fieldX w) (fieldY w))
  else if fieldN w = 0xE then .ok (.shl (fieldX w) (fieldY w))
  else .error .category8

/-- Category E: the selector is `nn` (rule R99). -/
def decodeCatE (w : Word) : Except Reject Instr :=
  if fieldNN w = 0x9E then .ok (.skp (fieldX w))
  else if fieldNN w = 0xA1 then .ok (.sknp (fieldX w))
  else .error .categoryE

/-- Category F: the selector is `nn` (rule R99). -/
def decodeCatF (w : Word) : Except Reject Instr :=
  if fieldNN w = 0x07 then .ok (.ldVxDT (fieldX w))
  else if fieldNN w = 0x0A then .ok (.ldVxK (fieldX w))
  else if fieldNN w = 0x15 then .ok (.ldDTVx (fieldX w))
  else if fieldNN w = 0x18 then .ok (.ldSTVx (fieldX w))
  else if fieldNN w = 0x1E then .ok (.addI (fieldX w))
  else if fieldNN w = 0x29 then .ok (.ldF (fieldX w))
  else if fieldNN w = 0x33 then .ok (.ldB (fieldX w))
  else if fieldNN w = 0x55 then .ok (.storeRegs (fieldX w))
  else if fieldNN w = 0x65 then .ok (.loadRegs (fieldX w))
  else .error .categoryF

/-- The decode procedure of rule R95, one line per category. -/
def decodeWord (w : Word) : Except Reject Instr :=
  match fieldCat w with
  | 0x0 => decodeCat0 w
  | 0x1 => .ok (.jp (fieldNNN w))
  | 0x2 => .ok (.call (fieldNNN w))
  | 0x3 => .ok (.seImm (fieldX w) (fieldNN w))
  | 0x4 => .ok (.sneImm (fieldX w) (fieldNN w))
  | 0x5 => .ok (.seReg (fieldX w) (fieldY w) (fieldN w))
  | 0x6 => .ok (.ldImm (fieldX w) (fieldNN w))
  | 0x7 => .ok (.addImm (fieldX w) (fieldNN w))
  | 0x8 => decodeCat8 w
  | 0x9 => .ok (.sneReg (fieldX w) (fieldY w) (fieldN w))
  | 0xA => .ok (.ldI (fieldNNN w))
  | 0xB => .ok (.jpV0 (fieldNNN w))
  | 0xC => .ok (.rnd (fieldX w) (fieldNN w))
  | 0xD => .ok (.drw (fieldX w) (fieldY w) (fieldN w))
  | 0xE => decodeCatE w
  | 0xF => decodeCatF w
  | ⟨_ + 16, h⟩ => absurd h (by omega)

/-- The word of two bytes, the first the high byte: `mem[a] * 256 + mem[a + 1]` (rules R64, R67, R90). -/
def wordOfBytes (hi lo : Byte) : Word := hi ++ lo

/-- The bytes of a word in the order memory holds them: the high byte at the lower address (rule R67). -/
def highByte (w : Word) : Byte := w.extractLsb' 8 8
/-- The byte at the higher address (rule R67). -/
def lowByte (w : Word) : Byte := w.extractLsb' 0 8

/-- Decode the instruction at the front of a list of bytes; answer it and the rest. -/
def decodeBytes : List Byte → Except Reject (Instr × List Byte)
  | hi :: lo :: rest =>
    match decodeWord (wordOfBytes hi lo) with
    | .ok i => .ok (i, rest)
    | .error e => .error e
  | _ => .error .truncated

/-! ## Encoding (rules R93, R96) -/

/-- Format A: `cat | nnn`. -/
def formatA (cat : BitVec 4) (nnn : BitVec 12) : Word := cat ++ nnn
/-- Formats XB and XS: `cat | x | nn` (in XS, `nn` is the selector). -/
def formatXB (cat : BitVec 4) (x : Reg) (nn : Byte) : Word := (cat ++ BitVec.ofFin (w := 4) x) ++ nn
/-- Formats XY and XYN: `cat | x | y | n` (in XY, `n` is the sub-opcode). -/
def formatXYN (cat : BitVec 4) (x y : Reg) (n : Nibble) : Word :=
  (cat ++ BitVec.ofFin (w := 4) x) ++ (BitVec.ofFin (w := 4) y ++ BitVec.ofFin (w := 4) n)

/-- The word of an instruction: the pattern of its row of rule R96, with its fields. -/
def encode : Instr → Word
  | .cls => 0x00E0
  | .ret => 0x00EE
  | .jp nnn => formatA 0x1 nnn
  | .call nnn => formatA 0x2 nnn
  | .seImm x nn => formatXB 0x3 x nn
  | .sneImm x nn => formatXB 0x4 x nn
  | .seReg x y n => formatXYN 0x5 x y n
  | .ldImm x nn => formatXB 0x6 x nn
  | .addImm x nn => formatXB 0x7 x nn
  | .ldReg x y => formatXYN 0x8 x y 0x0
  | .orReg x y => formatXYN 0x8 x y 0x1
  | .andReg x y => formatXYN 0x8 x y 0x2
  | .xorReg x y => formatXYN 0x8 x y 0x3
  | .addReg x y => formatXYN 0x8 x y 0x4
  | .subReg x y => formatXYN 0x8 x y 0x5
  | .shr x y => formatXYN 0x8 x y 0x6
  | .subn x y => formatXYN 0x8 x y 0x7
  | .shl x y => formatXYN 0x8 x y 0xE
  | .sneReg x y n => formatXYN 0x9 x y n
  | .ldI nnn => formatA 0xA nnn
  | .jpV0 nnn => formatA 0xB nnn
  | .rnd x nn => formatXB 0xC x nn
  | .drw x y n => formatXYN 0xD x y n
  | .skp x => formatXB 0xE x 0x9E
  | .sknp x => formatXB 0xE x 0xA1
  | .ldVxDT x => formatXB 0xF x 0x07
  | .ldVxK x => formatXB 0xF x 0x0A
  | .ldDTVx x => formatXB 0xF x 0x15
  | .ldSTVx x => formatXB 0xF x 0x18
  | .addI x => formatXB 0xF x 0x1E
  | .ldF x => formatXB 0xF x 0x29
  | .ldB x => formatXB 0xF x 0x33
  | .storeRegs x => formatXB 0xF x 0x55
  | .loadRegs x => formatXB 0xF x 0x65

/-- The two bytes of an instruction, as memory holds them (rule R67). -/
def encodeBytes (i : Instr) : List Byte := [highByte (encode i), lowByte (encode i)]

/-! ## The opcode table (rule R96) -/

/-- One row of rule R96: its number, and the `match` and `mask` such that a word `w` is the instruction exactly when
`w & mask = match`. -/
structure OpcodeRow where
  number : Nat
  bits : Word
  mask : Word
deriving DecidableEq, Repr

/-- Rows 1 to 18 of rule R96. -/
def opcodeRowsLow : List OpcodeRow :=
  [⟨1, 0x00E0, 0xFFFF⟩, ⟨2, 0x00EE, 0xFFFF⟩, ⟨3, 0x1000, 0xF000⟩, ⟨4, 0x2000, 0xF000⟩, ⟨5, 0x3000, 0xF000⟩,
   ⟨6, 0x4000, 0xF000⟩, ⟨7, 0x5000, 0xF000⟩, ⟨8, 0x6000, 0xF000⟩, ⟨9, 0x7000, 0xF000⟩] ++
  [⟨10, 0x8000, 0xF00F⟩, ⟨11, 0x8001, 0xF00F⟩, ⟨12, 0x8002, 0xF00F⟩, ⟨13, 0x8003, 0xF00F⟩, ⟨14, 0x8004, 0xF00F⟩,
   ⟨15, 0x8005, 0xF00F⟩, ⟨16, 0x8006, 0xF00F⟩, ⟨17, 0x8007, 0xF00F⟩, ⟨18, 0x800E, 0xF00F⟩]

/-- Rows 19 to 34 of rule R96. -/
def opcodeRowsHigh : List OpcodeRow :=
  [⟨19, 0x9000, 0xF000⟩, ⟨20, 0xA000, 0xF000⟩, ⟨21, 0xB000, 0xF000⟩, ⟨22, 0xC000, 0xF000⟩, ⟨23, 0xD000, 0xF000⟩] ++
  [⟨24, 0xE09E, 0xF0FF⟩, ⟨25, 0xE0A1, 0xF0FF⟩, ⟨26, 0xF007, 0xF0FF⟩, ⟨27, 0xF00A, 0xF0FF⟩, ⟨28, 0xF015, 0xF0FF⟩,
   ⟨29, 0xF018, 0xF0FF⟩, ⟨30, 0xF01E, 0xF0FF⟩, ⟨31, 0xF029, 0xF0FF⟩, ⟨32, 0xF033, 0xF0FF⟩, ⟨33, 0xF055, 0xF0FF⟩,
   ⟨34, 0xF065, 0xF0FF⟩]

/-- The 34 rows of rule R96. -/
def opcodeTable : List OpcodeRow := opcodeRowsLow ++ opcodeRowsHigh

/-- The number of an instruction's row in rule R96. -/
def Instr.rowNumber : Instr → Nat
  | .cls => 1
  | .ret => 2
  | .jp _ => 3
  | .call _ => 4
  | .seImm _ _ => 5
  | .sneImm _ _ => 6
  | .seReg _ _ _ => 7
  | .ldImm _ _ => 8
  | .addImm _ _ => 9
  | .ldReg _ _ => 10
  | .orReg _ _ => 11
  | .andReg _ _ => 12
  | .xorReg _ _ => 13
  | .addReg _ _ => 14
  | .subReg _ _ => 15
  | .shr _ _ => 16
  | .subn _ _ => 17
  | .shl _ _ => 18
  | .sneReg _ _ _ => 19
  | .ldI _ => 20
  | .jpV0 _ => 21
  | .rnd _ _ => 22
  | .drw _ _ _ => 23
  | .skp _ => 24
  | .sknp _ => 25
  | .ldVxDT _ => 26
  | .ldVxK _ => 27
  | .ldDTVx _ => 28
  | .ldSTVx _ => 29
  | .addI _ => 30
  | .ldF _ => 31
  | .ldB _ => 32
  | .storeRegs _ => 33
  | .loadRegs _ => 34

/-! ## The host's numbering of an instruction's bits -/

/-- The bits the opcode table numbers: with one 16-bit word, bit `k` of `w` is bit `k` of the instruction word; bits at
and above `nbits` are 0. -/
def tableWord (nbits w : Nat) : Word := BitVec.ofNat 16 (w % 2 ^ min nbits 16)

/-- The instruction the decoder reads from the bytes of `tableWord nbits w`, laid out as memory holds them. -/
def decodeTableWord (nbits w : Nat) : Option Instr :=
  match decodeBytes [highByte (tableWord nbits w), lowByte (tableWord nbits w)] with
  | .ok (i, _) => some i
  | .error _ => none

end Sys2Proof
end

