-- ==== Sys2Proof/Config.lean ====
section
/-! DEFINITION. What the spec leaves open (rules R7, R229): the oracles `RANDOM` and `KEY_PICK` and the interleaving of the agents'
moves as free values, and the default instance of the parameter `FONT`. `IPS` is timing only (rule R262) and has no place in the model; `ROM` is an
argument of the boot (rule R253). -/

namespace Sys2Proof.Machine

/-- One transition that some agent makes (rules R44, R226): the step agent, the tick agent, or the host. The host's reads
change nothing and are functions of the state (Machine/Agents.lean). -/
inductive Move where
  /-- One fetch, decode and execute (R120). -/
  | step
  /-- One 60 Hz decrement of both timers (R228). -/
  | tick
  /-- `set_key(k, b)` (R255). -/
  | setKey (k : Fin 16) (down : Bool)
  /-- `present_done` (R256). -/
  | presentDone
  /-- `reset` (R250). -/
  | reset
  /-- `reset`, then `load_rom(image)`, the boot order of rule R254: the only place where a load is legal. -/
  | boot (image : List Byte)
  /-- `quit` (R257): no further step or tick arrives. -/
  | quit
deriving DecidableEq, Repr, Inhabited

end Sys2Proof.Machine

namespace Sys2Proof.Config

/-- `RANDOM`, the byte drawn by the `k`-th draw (rules R7, R152; log entry 3). A FREE VALUE: it has no body, so
nothing is known of it but its width. -/
opaque randomByte : Nat → Byte

/-- `KEY_PICK`, the choice made by the `k`-th draw (rules R7, R193; log entry 4). A FREE VALUE: the model reduces it
modulo the number of keys that are down, so that it names any one of them. -/
opaque keyPick : Nat → Nat

/-- The `k`-th move of the free schedule (rules R229, R255; log entry 16): which agent moves, and what the host does. A FREE VALUE: it has no
body, so a claim about a machine that follows it holds for every infinite interleaving. -/
opaque schedule : Nat → Machine.Move

/-- The font bytes of glyph 0, the only ones the source gives (rule R70). -/
def glyph0 : List Byte := [0xF0, 0x90, 0x90, 0x90, 0xF0]

/-- The customary font bytes of glyphs 1 to F, at addresses `0x005` to `0x04F`: the default instance of the parameter
`FONT` (rule R70, `93_implementation_defined.md` entry G1). PRESUMED, general knowledge (log entry 2): the machine
holds its own font bytes in its state, and `State.reset` alone uses these. -/
def customaryFontBytes : List Byte :=
  [0x20, 0x60, 0x20, 0x20, 0x70] ++ [0xF0, 0x10, 0xF0, 0x80, 0xF0] ++ [0xF0, 0x10, 0xF0, 0x10, 0xF0] ++
  [0x90, 0x90, 0xF0, 0x10, 0x10] ++ [0xF0, 0x80, 0xF0, 0x10, 0xF0] ++ [0xF0, 0x80, 0xF0, 0x90, 0xF0] ++
  [0xF0, 0x10, 0x20, 0x40, 0x40] ++ [0xF0, 0x90, 0xF0, 0x90, 0xF0] ++ [0xF0, 0x90, 0xF0, 0x10, 0xF0] ++
  [0xF0, 0x90, 0xF0, 0x90, 0x90] ++ [0xE0, 0x90, 0xE0, 0x90, 0xE0] ++ [0xF0, 0x80, 0x80, 0x80, 0xF0] ++
  [0xE0, 0x90, 0x90, 0x90, 0xE0] ++ [0xF0, 0x80, 0xF0, 0x80, 0xF0] ++ [0xF0, 0x80, 0xF0, 0x80, 0x80]

/-- The same 75 bytes as the parameter's type. -/
def customaryFont : Vector Byte 75 := ⟨customaryFontBytes.toArray, by decide⟩

end Sys2Proof.Config
end

