-- ==== Sys2Proof/Machine/State.lean ====
section
/-! DEFINITION. The state of the machine (10_state.md, rules R20 to R43), the faults it records, what its
environment does next, and its value after reset (rule R43). Plain data throughout. -/

namespace Sys2Proof.Machine

/-- The six fault kinds of rule R210. A fault is no stop of the model: it is a next state whose status is `halted`
(rule R212), taken by `raise` in Machine/Ops.lean. -/
inductive FaultKind where
  /-- The fetched word is none of the 34 instructions (R215). -/
  | illegalInstruction
  /-- `2nnn` with `SP = 16` (R216). -/
  | stackOverflow
  /-- `00EE` with `SP = 0` (R217). -/
  | stackUnderflow
  /-- A fetch with `PC + 1 > 0xFFF` (R214). -/
  | fetchOutOfBounds
  /-- `Dxyn`, `Fx33`, `Fx55` or `Fx65` whose last address exceeds `0xFFF` (R218). -/
  | memoryOutOfBounds
  /-- `Ex9E` or `ExA1` with `Vx > 0xF` (R219). -/
  | keyIndexOutOfRange
deriving DecidableEq, Repr

/-- The run status (rule R39): running, or halted with the record of the fault. -/
inductive Status where
  | running
  | halted (kind : FaultKind) (word : Word) (pc : Word)
deriving DecidableEq, Repr

/-- What comes once no move is lined up (rule R229; log entry 16). -/
inductive Pacing where
  /-- Instruction steps alone. -/
  | steps
  /-- `left` instruction steps, then a tick, and from then on a tick after every `n` steps, for ever: the deterministic instance of
  rule R229. -/
  | every (n left : Nat)
  /-- The moves of the free schedule from its `k`-th on, for ever: any interleaving whatever. -/
  | free (k : Nat)
deriving DecidableEq, Repr

/-- The 4096 bytes of memory (rules R40, R60) in canonical form: the bytes that differ from the reset contents, with
strictly rising addresses (`Memory.wf`, Machine/Ops.lean). `font` is the parameter `FONT` (rule R70; log entry 2): the bytes
the hardware loads for glyphs 1 to F at reset, which no operation changes. -/
structure Memory where
  font  : Vector Byte 75
  cells : List Host.Cell
deriving DecidableEq, Repr

/-- The framebuffer (rules R35, R36): 32 rows of 64 one-bit cells; bit `cx` of row `cy` is `fb[cx + 64 * cy]`. -/
abbrev FrameBuffer := Vector (BitVec 64) 32

/-- The state (10_state.md section 1), and three fields of the model's own, `env`, `pacing` and `draws`. -/
structure State where
  /-- `V0` to `VF` (R20). -/
  v        : Vector Byte 16
  /-- The index register (R25). -/
  i        : Word
  /-- The program counter (R27). -/
  pc       : Word
  /-- The call-stack slots (R30, R32). -/
  stack    : Vector Word 16
  /-- The number of slots in use, 0 to 16 (R30). -/
  sp       : Fin 17
  /-- Memory (R40). -/
  mem      : Memory
  /-- The framebuffer (R35). -/
  fb       : FrameBuffer
  /-- The key slots, `true` for down (R37). -/
  key      : Vector Bool 16
  /-- The delay timer (R33). -/
  dt       : Byte
  /-- The sound timer (R34). -/
  st       : Byte
  /-- The dirty flag (R38). -/
  drawFlag : Bool
  /-- The run status with its fault record (R39). -/
  status   : Status
  /-- THE MODEL'S OWN (log entry 5): the transitions the environment has lined up, the next first. -/
  env      : List Move
  /-- THE MODEL'S OWN (log entry 16): what comes when none is lined up. -/
  pacing   : Pacing
  /-- THE MODEL'S OWN (log entries 3, 4): how many free values have been drawn. -/
  draws    : Nat
deriving DecidableEq, Repr

/-- The reasons to stop with a fault: none. Every fault of rule R210 has an effect the spec describes (rule R212), so the
machine goes on to a halted state; nothing in the model answers `fault`, which is safe. -/
inductive Fault where
deriving DecidableEq, Repr

/-- The reasons to refuse. -/
inductive Refusal where
  /-- Raised by an arm of `exec` for an instruction without a meaning: no arm is left (safe). -/
  | notModelled (mnemonic : String)
  /-- Raised by `load_rom` for an image above 3584 bytes, which the spec leaves undefined and tells a model to refuse
  (R253, `93_implementation_defined.md` entry U3). No instruction raises it. Safe: the model stops. -/
  | imageTooLong (length : Nat)
deriving DecidableEq, Repr

/-- The outcome of one transition. -/
abbrev Result := Host.Outcome State Fault Refusal

/-- The state after reset (rules R43, R250) of a machine whose font parameter is `font`. -/
def State.resetWith (font : Vector Byte 75) : State where
  v := Vector.replicate 16 0
  i := 0
  pc := 0x200
  stack := Vector.replicate 16 0
  sp := 0
  mem := { font := font, cells := [] }
  fb := Vector.replicate 32 0
  key := Vector.replicate 16 false
  dt := 0
  st := 0
  drawFlag := false
  status := .running
  env := []
  pacing := .steps
  draws := 0

/-- The state after reset, with the default font (rule R70, log entry 2). -/
def State.reset : State := State.resetWith Config.customaryFont

end Sys2Proof.Machine
end

