-- ==== Sys2Proof/Machine/Ops.lean ====
section
/-! DEFINITION. The named operations over registers, memory, call stack, framebuffer and keypad, taking a fault, and the
fetch. Meanings use these and touch no field of the state otherwise. -/

namespace Sys2Proof.Machine

/-! ## Registers -/

/-- `V[r]` (rule R20). -/
def State.readV (r : Reg) (s : State) : Byte := s.v[r.val]
/-- `V[r] <- b` (rule R21: no register is hardwired). -/
def State.writeV (r : Reg) (b : Byte) (s : State) : State := { s with v := s.v.set r.val b }
/-- `I <- w` (rule R25). -/
def State.setI (w : Word) (s : State) : State := { s with i := w }
/-- `pc <- target` (rule R27). -/
def State.setPc (target : Word) (s : State) : State := { s with pc := target }
/-- `pc <- PC + 2`, the normal case of rule R28. -/
def State.advance (s : State) : State := s.setPc (s.pc + 2)
/-- `DT <- b` (rule R33). -/
def State.setDT (b : Byte) (s : State) : State := { s with dt := b }
/-- `ST <- b` (rule R34). -/
def State.setST (b : Byte) (s : State) : State := { s with st := b }
/-- Replace the memory. -/
def State.setMem (m : Memory) (s : State) : State := { s with mem := m }
/-- Replace the framebuffer and set the dirty flag (rule R38). -/
def State.showFb (fb : FrameBuffer) (s : State) : State := { s with fb := fb, drawFlag := true }
/-- Count one draw of a free value (log entries 3, 4). -/
def State.countDraw (s : State) : State := { s with draws := s.draws + 1 }
/-- Replace the moves the environment has lined up (log entry 5). -/
def State.setEnv (ms : List Move) (s : State) : State := { s with env := ms }
/-- Replace what comes when no move is lined up (log entry 16). -/
def State.setPacing (p : Pacing) (s : State) : State := { s with pacing := p }

/-! ## Taking a fault (rules R210 to R213) -/

/-- The code of a fault kind (rule R210, decision D22). -/
def FaultKind.code : FaultKind → Nat
  | .illegalInstruction => 1
  | .stackOverflow => 2
  | .stackUnderflow => 3
  | .fetchOutOfBounds => 4
  | .memoryOutOfBounds => 5
  | .keyIndexOutOfRange => 6

/-- The halted state of a fault: the status records the kind, the word and the program counter, and nothing else changes
(rule R212). -/
def State.halt (kind : FaultKind) (word : Word) (s : State) : State :=
  { s with status := .halted kind word s.pc }

/-- `raise kind(word, PC)` (rule R212). There is no return from a fault (rule R223): only `reset` leaves the halt. -/
def raise (kind : FaultKind) (word : Word) (s : State) : Result := .next (s.halt kind word)

/-! ## Memory (20_memory.md) -/

/-- What an address that is not listed reads as: the reset contents (rules R43, R62, R70), the font at `0x000` to `0x04F` and
zero above it. -/
def Memory.unlisted (m : Memory) (a : Nat) : Byte :=
  if a < 5 then Config.glyph0.getD a 0
  else if a < 80 then m.font.toList.getD (a - 5) 0
  else 0

/-- The listed byte at an address, if there is one. -/
def Memory.find (a : Nat) : List Host.Cell → Option Byte
  | [] => none
  | c :: rest => if c.1 = a then some c.2 else Memory.find a rest

/-- List a byte at an address, keeping the addresses rising. -/
def Memory.put (a : Nat) (b : Byte) : List Host.Cell → List Host.Cell
  | [] => [(a, b)]
  | c :: rest =>
    if a < c.1 then (a, b) :: c :: rest
    else if c.1 = a then (a, b) :: rest
    else c :: Memory.put a b rest

/-- Take an address off the list. -/
def Memory.drop (a : Nat) (cells : List Host.Cell) : List Host.Cell := cells.filter fun c => c.1 ≠ a

/-- `mem[a]` (rule R63, its range check apart). -/
def Memory.read (m : Memory) (a : Nat) : Byte := (Memory.find a m.cells).getD (m.unlisted a)

/-- `mem[a] <- b` (rule R65, its range check apart; rule R72: every byte can be written). -/
def Memory.write (m : Memory) (a : Nat) (b : Byte) : Memory :=
  { m with cells := if b = m.unlisted a then Memory.drop a m.cells else Memory.put a b m.cells }

/-- Bytes at increasing addresses from `a` (rule R67). -/
def Memory.writeBytes (m : Memory) (a : Nat) : List Byte → Memory
  | [] => m
  | b :: bs => (m.write a b).writeBytes (a + 1) bs

/-- The canonical form: rising addresses within the 4096 bytes, and no entry equal to what its address would read as
unlisted. -/
abbrev Memory.wf (m : Memory) : Prop :=
  m.cells.Pairwise (fun c d => c.1 < d.1) ∧ ∀ c ∈ m.cells, c.1 < 4096 ∧ c.2 ≠ m.unlisted c.1

/-! ## The call stack (rules R30 to R32) -/

/-- `push(w)`: nothing when all 16 slots are in use. -/
def State.push (w : Word) (s : State) : Option State :=
  if h : s.sp.val < 16 then
    some { s with stack := s.stack.set s.sp.val w, sp := ⟨s.sp.val + 1, by omega⟩ }
  else none

/-- `pop()`: nothing when no slot is in use. The slot keeps its value (rule R32). -/
def State.pop (s : State) : Option (Word × State) :=
  if h : 0 < s.sp.val then
    some (s.stack[s.sp.val - 1], { s with sp := ⟨s.sp.val - 1, by omega⟩ })
  else none

/-! ## The framebuffer (rules R35, R36, R180 to R182) -/

/-- `fb[c]` (rule R36), for `c` below 2048. -/
def FrameBuffer.lit (fb : FrameBuffer) (c : Nat) : Bool := (fb.toList.getD (c / 64) 0).getLsbD (c % 64)

/-- `fb[c] <- fb[c] XOR 1`. -/
def FrameBuffer.flip (fb : FrameBuffer) (c : Nat) : FrameBuffer :=
  fb.setIfInBounds (c / 64) (fb.toList.getD (c / 64) 0 ^^^ BitVec.twoPow 64 (c % 64))

/-- Every cell clear (rule R181). -/
def FrameBuffer.clear : FrameBuffer := Vector.replicate 32 0

/-- The cell of sprite row `r` and column offset `col` for a sprite at `(px, py)`: each axis wraps on its own
(rule R182). -/
def spriteCell (px py r col : Nat) : Nat := (px + col) % 64 + (py + r) % 32 * 64

/-- The cells of the set bits of one sprite row, the most significant bit leftmost (rule R180). -/
def spriteRow (b : Byte) (px py r : Nat) : List Nat :=
  ((List.range 8).filter fun col => b.getLsbD (7 - col)).map (spriteCell px py r)

/-- The cells a sprite of `n` rows at `base` plots, in the order the spec visits them (rule R182). -/
def spriteCells (m : Memory) (base px py n : Nat) : List Nat :=
  (List.range n).flatMap fun r => spriteRow (m.read (base + r)) px py r

/-- Plot one cell: note a collision if it was lit before the flip, then flip it (rule R182). -/
def plotCell (p : FrameBuffer × Bool) (c : Nat) : FrameBuffer × Bool := (p.1.flip c, p.2 || p.1.lit c)

/-- Plot cells one after another from a cleared collision flag (rule R182). -/
def plotCells (fb : FrameBuffer) (cells : List Nat) : FrameBuffer × Bool := cells.foldl plotCell (fb, false)

/-! ## The keypad (rules R37, R190) -/

/-- `key[k] = 1`. -/
def State.keyDown (k : Nat) (s : State) : Bool := s.key.toList.getD k false

/-- The keys that are down, lowest first: the set `S` of rule R193. -/
def State.pressedKeys (s : State) : List Nat := (List.range 16).filter fun k => s.keyDown k

/-- `draw KEY_PICK(S)`: any member of `S`, as the free value `choice` says; none when `S` is empty (rule R193). -/
def pickKey (choice : Nat) : List Nat → Option Nat
  | [] => none
  | [k] => some k
  | k :: l :: ks => (k :: l :: ks)[choice % (k :: l :: ks).length]?

/-! ## Fetch (rules R64, R67) -/

/-- `MemRead(PC, 2)`: nothing when the second byte would lie beyond `0xFFF`. -/
def State.fetch (s : State) : Option Word :=
  if s.pc.toNat + 1 ≤ 0xFFF then
    some (wordOfBytes (s.mem.read s.pc.toNat) (s.mem.read (s.pc.toNat + 1)))
  else none

/-- The state with a word stored where the next step fetches, and an instruction step as the next transition
(log entry 8). A program counter from which nothing can be fetched is set to the entry point. -/
def State.storeFetchWord (w : Word) (s : State) : State :=
  let pc : Word := if s.pc.toNat + 1 ≤ 0xFFF then s.pc else 0x200
  { s with
    pc := pc
    status := .running
    env := if s.env = [] ∧ s.pacing = .steps then [] else .step :: s.env
    mem := s.mem.writeBytes pc.toNat [highByte w, lowByte w] }

end Sys2Proof.Machine
end

