-- ==== Sys2Proof/Machine/Flags.lean ====
section
/-! DEFINITION. The flag computations, all into `VF` (rule R22), and the two ways an arithmetic instruction ends: without a
flag, and with one (flag first, destination second, rule R23). -/

namespace Sys2Proof.Machine

/-- A flag as the value written to `VF` (rule R22). -/
def flagByte (b : Bool) : Byte := if b then 1 else 0

/-- The carry of `8xy4`: the true sum exceeds 255 (rules R146, R153). -/
def carryFlag (a b : Byte) : Bool := a.toNat + b.toNat > 255

/-- The flag of `8xy5` and `8xy7`: no borrow in `a - b`, equal operands included (rules R147, R149, R153). -/
def noBorrowFlag (a b : Byte) : Bool := a.toNat ≥ b.toNat

/-- The bit `8xy6` shifts out (rule R148). -/
def lowBitFlag (a : Byte) : Bool := a.getLsbD 0

/-- The bit `8xyE` shifts out (rule R150). -/
def highBitFlag (a : Byte) : Bool := a.getLsbD 7

/-- The flag of `Fx1E`: the true sum exceeds `0xFFF` (rule R162). -/
def pastMemoryFlag (i : Word) (b : Byte) : Bool := i.toNat + b.toNat > 0xFFF

/-- `VF <- flag`. -/
def State.writeFlag (b : Bool) (s : State) : State := s.writeV VF (flagByte b)

/-- `V[x] <- value`, next instruction. -/
def finishReg (x : Reg) (value : Byte) (s : State) : Result := .next (s.writeV x value).advance

/-- `VF <- flag`, then `V[x] <- value`, next instruction (rule R23: the result is what `VF` holds when `x = 0xF`). -/
def finishRegFlag (x : Reg) (flag : Bool) (value : Byte) (s : State) : Result :=
  .next ((s.writeFlag flag).writeV x value).advance

/-- The end of a skip: `PC + 4` when the condition holds, else `PC + 2` (rule R28). -/
def skipIf (cond : Bool) (s : State) : Result :=
  .next (s.setPc (if cond then s.pc + 4 else s.pc + 2))

end Sys2Proof.Machine
end

