-- ==== Sys2Proof/Machine/Operands.lean ====
section
/-! DEFINITION. The operand forms: register operands sampled from the state before the instruction (rule R24, through
`State.readV`), zero-extended immediates (rule R94, `addrZext16`), the one data addressing mode `I + k` (rule R160) with its
range check (rule R66), the registers `V0` to `Vx`, the decimal digits of a byte, and the key index. -/

namespace Sys2Proof.Machine

/-- `EA = I + k`, a plain non-negative integer with no wrap-around (rule R160). -/
def State.effectiveAddr (k : Nat) (s : State) : Nat := s.i.toNat + k

/-- The last address of an access, `I + k`, lies in memory (rule R66). -/
def State.addressable (k : Nat) (s : State) : Bool := s.effectiveAddr k ≤ 0xFFF

/-- The range check of `Dxyn`: no row, or the last row's address lies in memory (rule R66). -/
def State.spriteFits (n : Nibble) (s : State) : Bool := n.val = 0 || s.addressable (n.val - 1)

/-- The values of `V0` to `Vx` inclusive (rule R165). -/
def State.regsThrough (x : Reg) (s : State) : List Byte := s.v.toList.take (x.val + 1)

/-- The register file with `V[k] <- MemRead(base + k, 1)` for the first `count` registers (rule R166). -/
def loadVs (m : Memory) (base : Nat) (v : Vector Byte 16) : Nat → Vector Byte 16
  | 0 => v
  | k + 1 => (loadVs m base v k).setIfInBounds k (m.read (base + k))

/-- Hundreds, tens and units of a byte, one decimal digit per byte (rule R164). -/
def bcdDigits (a : Byte) : List Byte :=
  [BitVec.ofNat 8 (a.toNat / 100), BitVec.ofNat 8 (a.toNat / 10 % 10), BitVec.ofNat 8 (a.toNat % 10)]

/-- The key index in `Vx`: the whole 8-bit value, nothing above `0xF` (rules R191, R192). -/
def State.keyIndex (x : Reg) (s : State) : Option Nat :=
  if (s.readV x).toNat ≤ 0xF then some (s.readV x).toNat else none

end Sys2Proof.Machine
end

