-- ==== Sys2Proof/Machine/Alu.lean ====
section
/-! DEFINITION. Register loads, arithmetic, logic, shifts and random (41_alu.md). Every operand is sampled from the state
before the instruction (rule R24). -/

namespace Sys2Proof.Machine

/-- `6xnn` (R140). -/
def execLdImm (x : Reg) (nn : Byte) (s : State) : Result := finishReg x nn s

/-- `7xnn` (R141): wrapping, no flag. -/
def execAddImm (x : Reg) (nn : Byte) (s : State) : Result := finishReg x (s.readV x + nn) s

/-- `8xy0` (R142). -/
def execLdReg (x y : Reg) (s : State) : Result := finishReg x (s.readV y) s

/-- `8xy1` (R143). -/
def execOrReg (x y : Reg) (s : State) : Result := finishReg x (s.readV x ||| s.readV y) s

/-- `8xy2` (R144). -/
def execAndReg (x y : Reg) (s : State) : Result := finishReg x (s.readV x &&& s.readV y) s

/-- `8xy3` (R145). -/
def execXorReg (x y : Reg) (s : State) : Result := finishReg x (s.readV x ^^^ s.readV y) s

/-- `8xy4` (R146). -/
def execAddReg (x y : Reg) (s : State) : Result :=
  finishRegFlag x (carryFlag (s.readV x) (s.readV y)) (s.readV x + s.readV y) s

/-- `8xy5` (R147). -/
def execSubReg (x y : Reg) (s : State) : Result :=
  finishRegFlag x (noBorrowFlag (s.readV x) (s.readV y)) (s.readV x - s.readV y) s

/-- `8xy6` (R148): a logical shift of `Vx`; `y` is ignored (R101). -/
def execShr (x : Reg) (s : State) : Result :=
  finishRegFlag x (lowBitFlag (s.readV x)) (s.readV x >>> 1) s

/-- `8xy7` (R149). -/
def execSubn (x y : Reg) (s : State) : Result :=
  finishRegFlag x (noBorrowFlag (s.readV y) (s.readV x)) (s.readV y - s.readV x) s

/-- `8xyE` (R150); `y` is ignored (R101). -/
def execShl (x : Reg) (s : State) : Result :=
  finishRegFlag x (highBitFlag (s.readV x)) (s.readV x <<< 1) s

/-- `Cxnn` (R152): a fresh free byte at every execution (log entry 3). -/
def execRnd (x : Reg) (nn : Byte) (s : State) : Result :=
  finishReg x (Config.randomByte s.draws &&& nn) s.countDraw

end Sys2Proof.Machine
end

