-- ==== Sys2Proof/Machine/Display.lean ====
section
/-! DEFINITION. The display instructions (43_display.md). -/

namespace Sys2Proof.Machine

/-- `00E0` (R181). -/
def execCls (s : State) : Result := .next (s.showFb FrameBuffer.clear).advance

/-- The cells `Dxyn` plots: coordinates and base sampled before the first write (R182, R24). -/
def State.drawCells (x y : Reg) (n : Nibble) (s : State) : List Nat :=
  spriteCells s.mem (s.effectiveAddr 0) (s.readV x).toNat (s.readV y).toNat n.val

/-- `Dxyn` (R182). -/
def execDrw (x y : Reg) (n : Nibble) (s : State) : Result :=
  if s.spriteFits n then
    let p := plotCells s.fb (s.drawCells x y n)
    .next ((s.showFb p.1).writeFlag p.2).advance
  else raise .memoryOutOfBounds (encode (.drw x y n)) s

end Sys2Proof.Machine
end

