-- ==== Sys2Proof/Machine/Flow.lean ====
section
/-! DEFINITION. The control transfer instructions (40_flow.md). -/

namespace Sys2Proof.Machine

/-- `1nnn` (R121). -/
def execJp (nnn : BitVec 12) (s : State) : Result := .next (s.setPc (addrZext16 nnn))

/-- `2nnn` (R122): the return address pushed is `PC + 2`. -/
def execCall (nnn : BitVec 12) (s : State) : Result :=
  match s.push (s.pc + 2) with
  | some t => .next (t.setPc (addrZext16 nnn))
  | none => raise .stackOverflow (encode (.call nnn)) s

/-- `00EE` (R123): nothing is added to the popped value. -/
def execRet (s : State) : Result :=
  match s.pop with
  | some (target, t) => .next (t.setPc target)
  | none => raise .stackUnderflow (encode .ret) s

/-- `Bnnn` (R124): always `V0`; the sum is not reduced to 12 bits. -/
def execJpV0 (nnn : BitVec 12) (s : State) : Result :=
  .next (s.setPc (addrZext16 nnn + byteZext16 (s.readV 0)))

/-- `3xnn` (R125). -/
def execSeImm (x : Reg) (nn : Byte) (s : State) : Result := skipIf (s.readV x = nn) s

/-- `4xnn` (R126). -/
def execSneImm (x : Reg) (nn : Byte) (s : State) : Result := skipIf (s.readV x ≠ nn) s

/-- `5xyn` (R127); `n` is ignored (R101). -/
def execSeReg (x y : Reg) (s : State) : Result := skipIf (s.readV x = s.readV y) s

/-- `9xyn` (R128); `n` is ignored (R101). -/
def execSneReg (x y : Reg) (s : State) : Result := skipIf (s.readV x ≠ s.readV y) s

end Sys2Proof.Machine
end

