-- ==== Sys2Proof/Machine/IndexMemory.lean ====
section
/-! DEFINITION. Index register and memory transfers (42_index_memory.md). `I` is never changed by a transfer (rule R168), and the
range check stands before the first write (rule R66). -/

namespace Sys2Proof.Machine

/-- `Annn` (R161). -/
def execLdI (nnn : BitVec 12) (s : State) : Result := .next (s.setI (addrZext16 nnn)).advance

/-- `Fx1E` (R162): `I` keeps 16 bits; the flag compares the true sum with `0xFFF`. -/
def execAddI (x : Reg) (s : State) : Result :=
  .next ((s.setI (s.i + byteZext16 (s.readV x))).writeFlag (pastMemoryFlag s.i (s.readV x))).advance

/-- `Fx29` (R163): the whole of `Vx` times 5. -/
def execLdF (x : Reg) (s : State) : Result := .next (s.setI (byteZext16 (s.readV x) * 5)).advance

/-- `Fx33` (R164). -/
def execLdB (x : Reg) (s : State) : Result :=
  if s.addressable 2 then
    .next (s.setMem (s.mem.writeBytes (s.effectiveAddr 0) (bcdDigits (s.readV x)))).advance
  else raise .memoryOutOfBounds (encode (.ldB x)) s

/-- `Fx55` (R165). -/
def execStoreRegs (x : Reg) (s : State) : Result :=
  if s.addressable x.val then
    .next (s.setMem (s.mem.writeBytes (s.effectiveAddr 0) (s.regsThrough x))).advance
  else raise .memoryOutOfBounds (encode (.storeRegs x)) s

/-- `Fx65` (R166). -/
def execLoadRegs (x : Reg) (s : State) : Result :=
  if s.addressable x.val then
    .next ({ s with v := loadVs s.mem (s.effectiveAddr 0) s.v (x.val + 1) } : State).advance
  else raise .memoryOutOfBounds (encode (.loadRegs x)) s

end Sys2Proof.Machine
end

