-- ==== Sys2Proof/Machine/KeypadTimers.lean ====
section
/-! DEFINITION. The keypad and timer instructions (44_keypad_timers.md). -/

namespace Sys2Proof.Machine

/-- `Ex9E` (R191). -/
def execSkp (x : Reg) (s : State) : Result :=
  match s.keyIndex x with
  | some k => skipIf (s.keyDown k) s
  | none => raise .keyIndexOutOfRange (encode (.skp x)) s

/-- `ExA1` (R192). -/
def execSknp (x : Reg) (s : State) : Result :=
  match s.keyIndex x with
  | some k => skipIf (!s.keyDown k) s
  | none => raise .keyIndexOutOfRange (encode (.sknp x)) s

/-- `Fx07` (R194). -/
def execLdVxDT (x : Reg) (s : State) : Result := finishReg x s.dt s

/-- `Fx0A` (R193): with no key down nothing changes, so the instruction is fetched again; else any key that is down
(log entry 4). -/
def execLdVxK (x : Reg) (s : State) : Result :=
  match pickKey (Config.keyPick s.draws) s.pressedKeys with
  | none => .next s
  | some k => finishReg x (BitVec.ofNat 8 k) s.countDraw

/-- `Fx15` (R195). -/
def execLdDTVx (x : Reg) (s : State) : Result := .next (s.setDT (s.readV x)).advance

/-- `Fx18` (R196). -/
def execLdSTVx (x : Reg) (s : State) : Result := .next (s.setST (s.readV x)).advance

end Sys2Proof.Machine
end

