-- ==== Sys2Proof/Machine/Agents.lean ====
section
/-! DEFINITION. The three agents of rule R226: the instruction step, the 60 Hz tick, and the host's operations (rules R44, R250 to
R257). Each is one atomic transition (rule R227). -/

namespace Sys2Proof.Machine

/-! ## The step agent -/

/-- Decode and execute a fetched word (rules R120, R215). -/
def runWord (w : Word) (s : State) : Result :=
  match decodeWord w with
  | .ok i => exec i s
  | .error _ => raise .illegalInstruction w s

/-- Fetch, decode and execute; the record of a failed fetch holds the word `0x0000` (rules R120, R210, R214, R220). -/
def fetchAndRun (s : State) : Result :=
  match s.fetch with
  | some w => runWord w s
  | none => raise .fetchOutOfBounds 0x0000 s

/-- One instruction step: nothing while halted (rules R120, R213). -/
def coreStep (s : State) : Result :=
  match s.status with
  | .running => fetchAndRun s
  | .halted _ _ _ => .next s

/-! ## The tick agent -/

/-- One timer, counted down by one and never below zero (rule R228). -/
def countDown (t : Byte) : Byte := if t.toNat > 0 then t - 1 else t

/-- One 60 Hz tick: nothing while halted (rules R213, R228). -/
def State.tick (s : State) : State :=
  match s.status with
  | .running => (s.setDT (countDown s.dt)).setST (countDown s.st)
  | .halted _ _ _ => s

/-! ## The host -/

/-- `set_key(k, b)` (rule R255). -/
def State.setKey (k : Fin 16) (down : Bool) (s : State) : State := { s with key := s.key.set k.val down }

/-- `present_done` (rule R256). -/
def State.presentDone (s : State) : State := { s with drawFlag := false }

/-- `reset` (rule R250), in any state: every element of the machine at its reset value. The model's own fields, the moves lined
up, the pacing and the count of draws, belong to the environment and stay. -/
def State.applyReset (s : State) : State :=
  { State.resetWith s.mem.font with env := s.env, pacing := s.pacing, draws := s.draws }

/-- `load_rom(image)` (rule R253): the image verbatim from `0x200`, refused above 3584 bytes. -/
def loadRom (image : List Byte) (s : State) : Result :=
  if image.length ≤ 3584 then .next (s.setMem (s.mem.writeBytes 0x200 image))
  else .refused (.imageTooLong image.length)

/-- `read_fb(c)` (rule R256). -/
def State.readFb (c : Fin 2048) (s : State) : Bool := s.fb.lit c.val
/-- `read_draw_flag` (rule R256). -/
def State.readDrawFlag (s : State) : Bool := s.drawFlag
/-- `read_st` (rule R34). -/
def State.readST (s : State) : Byte := s.st
/-- `read_status`, with its fault record (rule R213). -/
def State.readStatus (s : State) : Status := s.status

/-! ## Which agent moves -/

/-- What a pacing gives next, and the pacing after that (rule R229; log entry 16). A `quit` of the free schedule stays, for nothing
comes after it (rule R257). -/
def Pacing.next : Pacing → Move × Pacing
  | .steps => (.step, .steps)
  | .every n 0 => (.tick, .every n n)
  | .every n (left + 1) => (.step, .every n left)
  | .free k => (Config.schedule k, if Config.schedule k = .quit then .free k else .free (k + 1))

/-- The next transition and the state without it in the line: the first move lined up, or what the pacing gives when none is. A
`quit` stays in the line, for nothing comes after it (rule R257; log entry 5). -/
def nextMove (s : State) : Move × State :=
  match s.env with
  | [] => (s.pacing.next.1, s.setPacing s.pacing.next.2)
  | .quit :: _ => (.quit, s)
  | m :: rest => (m, s.setEnv rest)

/-- One transition of the machine (rule R226). DEDUCED (log entry 17): the host's moves, `set_key` and `present_done` among them, act while
the machine is halted too, as rules R213 and R226 say; "no element changes until reset" of rule R45 is read as said of steps and
ticks. -/
def takeMove (m : Move) (s : State) : Result :=
  match m with
  | .step => coreStep s
  | .tick => .next s.tick
  | .setKey k down => .next (s.setKey k down)
  | .presentDone => .next s.presentDone
  | .reset => .next s.applyReset
  | .boot image => loadRom image s.applyReset
  | .quit => .next s

end Sys2Proof.Machine
end

