-- ==== Sys2Proof/Machine/Step.lean ====
section
/-! DEFINITION. One step of the machine: its next transition (rules R226, R227). With no move lined up by the environment and the pacing
of the reset state it is one fetch, decode and execute (rule R120). -/

namespace Sys2Proof.Machine

/-- The next transition. -/
def step (s : State) : Host.Outcome State Fault Refusal := takeMove (nextMove s).1 (nextMove s).2

/-- The state with the instruction word that the table numbers `w` stored where the next step fetches. -/
def State.withFetchWord (s : State) (nbits w : Nat) : State := s.storeFetchWord (tableWord nbits w)

end Sys2Proof.Machine
end

