-- ==== Sys2Proof/Safety.lean ====
section
/-! DEFINITION. The vocabulary of the claims: what a safe run is, what an instruction leaves unchanged (frames), and the spec's own
tables over all instructions (fault conditions R210, program counter R28, written registers R22), each written from the rule and
not from the meanings. -/

namespace Sys2Proof.Machine

/-! ## Safe runs -/

/-- The machine runs: no fault has halted it. A halt is never a successful end (rules R213, R264). -/
def State.isRunning (s : State) : Prop := s.status = .running

/-- What holds in every state reachable from reset: the bounds of rule R45 on `PC` and on live return addresses, the record of a halt
naming the program counter at which the machine stands (rule R212), and the canonical form of memory, which is the model's own
(log entry 9). That `SP` is at most 16 and that cells and key slots
are single bits is in the types. -/
structure Inv (s : State) : Prop where
  memory : s.mem.wf
  pcBound : s.pc.toNat ≤ 0x10FE
  liveSlots : ∀ (k : Nat) (h : k < 16), k < s.sp.val → s.stack[k].toNat ≤ 0x1000
  record : ∀ kind word pc, s.status = .halted kind word pc → pc = s.pc

/-- The program at `PC` has ended in the sense of rule R264: a jump to itself. A convention, not a behaviour of the hardware. -/
def State.atSelfJump (s : State) : Prop :=
  ∃ nnn, s.fetch = some (encode (.jp nnn)) ∧ addrZext16 nnn = s.pc

/-! ## Runs (rules R227, R229) -/

/-- Go on with a next state; a fault and a refusal end the run. -/
def andThen (r : Result) (f : State → Result) : Result :=
  match r with
  | .next t => f t
  | .fault reason => .fault reason
  | .refused reason => .refused reason

/-- `n` steps of the machine. -/
def runSteps : Nat → State → Result
  | 0, s => .next s
  | n + 1, s => andThen (step s) (runSteps n)

/-- The first `n` moves of an infinite interleaving `σ`, one whole transition after another, none after a `quit` (rules R227, R257). -/
def runOn : (Nat → Move) → Nat → State → Result
  | _, 0, s => .next s
  | σ, n + 1, s => if σ 0 = .quit then .next s else andThen (takeMove (σ 0) s) (runOn (fun j => σ (j + 1)) n)

/-- An interleaving in which steps keep coming and ticks keep coming: the only assumption a liveness claim may make (rule R229). -/
def Fair (σ : Nat → Move) : Prop := ∀ k, (∃ j, k ≤ j ∧ σ j = .step) ∧ ∃ j, k ≤ j ∧ σ j = .tick

/-- A move that leaves the core running the same program: no reset, no boot, no quit. -/
def Move.keepsRunning : Move → Bool
  | .step | .tick | .setKey _ _ | .presentDone => true
  | .reset | .boot _ | .quit => false

/-- The same machine in an environment that does something else next. -/
def State.inEnvironment (env : List Move) (pacing : Pacing) (s : State) : State := { s with env := env, pacing := pacing }

/-- Two outcomes that agree on every element of the machine; what the environment does next is no element of it. -/
def SameOutcome : Result → Result → Prop
  | .next s, .next t => s.inEnvironment t.env t.pacing = t
  | .fault r, .fault q => r = q
  | .refused r, .refused q => r = q
  | _, _ => False

/-! ## Frames -/

/-- The parts of the state beside the general registers and memory that some instruction writes. -/
inductive Part where
  | i | pc | stack | sp | fb | dt | st | drawFlag | status | draws
deriving DecidableEq, Repr

/-- Every general register outside `rs` is unchanged. -/
def SameRegs (rs : List Reg) (s t : State) : Prop := ∀ r, r ∉ rs → t.readV r = s.readV r

/-- Every byte of memory is unchanged. -/
def SameMemory (s t : State) : Prop := ∀ a, t.mem.read a = s.mem.read a

/-- Every byte of memory outside the `len` bytes at `base` is unchanged. -/
def SameMemoryOutside (base len : Nat) (s t : State) : Prop :=
  ∀ a, a < base ∨ base + len ≤ a → t.mem.read a = s.mem.read a

/-- Every part outside `ps` is unchanged; so are the keypad, which no instruction writes (rule R37), the font parameter, and what the
environment does next. -/
structure SameParts (ps : List Part) (s t : State) : Prop where
  i : Part.i ∈ ps ∨ t.i = s.i
  pc : Part.pc ∈ ps ∨ t.pc = s.pc
  stack : Part.stack ∈ ps ∨ t.stack = s.stack
  sp : Part.sp ∈ ps ∨ t.sp = s.sp
  fb : Part.fb ∈ ps ∨ t.fb = s.fb
  dt : Part.dt ∈ ps ∨ t.dt = s.dt
  st : Part.st ∈ ps ∨ t.st = s.st
  drawFlag : Part.drawFlag ∈ ps ∨ t.drawFlag = s.drawFlag
  status : Part.status ∈ ps ∨ t.status = s.status
  draws : Part.draws ∈ ps ∨ t.draws = s.draws
  key : t.key = s.key
  font : t.mem.font = s.mem.font
  env : t.env = s.env
  pacing : t.pacing = s.pacing

/-- The frame of an instruction that stores nothing: all is unchanged but the registers `rs` and the parts `ps`. -/
structure Frame (rs : List Reg) (ps : List Part) (s t : State) : Prop where
  regs : SameRegs rs s t
  memory : SameMemory s t
  parts : SameParts ps s t

/-- The frame of an instruction that stores `len` bytes at `base` and writes no register: all is unchanged but those bytes and `PC`. -/
structure StoreFrame (base len : Nat) (s t : State) : Prop where
  regs : SameRegs [] s t
  memory : SameMemoryOutside base len s t
  parts : SameParts [.pc] s t

/-- The byte at `a` once `bytes` have been stored from `base`. -/
def byteAfterStore (base : Nat) (bytes : List Byte) (s : State) (a : Nat) : Byte :=
  if base ≤ a ∧ a < base + bytes.length then bytes.getD (a - base) 0 else s.mem.read a

/-! ## Tables of the spec over all instructions -/

/-- When an instruction raises which fault (rule R210): "No other instruction and no other condition raises a fault." -/
def faultOf : Instr → State → Option FaultKind
  | .call _, s => if s.sp.val = 16 then some .stackOverflow else none
  | .ret, s => if s.sp.val = 0 then some .stackUnderflow else none
  | .drw _ _ n, s => if 1 ≤ n.val ∧ 0xFFF < s.i.toNat + n.val - 1 then some .memoryOutOfBounds else none
  | .ldB _, s => if 0xFFF < s.i.toNat + 2 then some .memoryOutOfBounds else none
  | .storeRegs x, s => if 0xFFF < s.i.toNat + x.val then some .memoryOutOfBounds else none
  | .loadRegs x, s => if 0xFFF < s.i.toNat + x.val then some .memoryOutOfBounds else none
  | .skp x, s => if 0xF < (s.readV x).toNat then some .keyIndexOutOfRange else none
  | .sknp x, s => if 0xF < (s.readV x).toNat then some .keyIndexOutOfRange else none
  | _, _ => none

/-- Whether a skip's condition holds (rules R125 to R128, R191, R192); an instruction that is no skip skips nothing. -/
def skipTaken : Instr → State → Prop
  | .seImm x nn, s => s.readV x = nn
  | .sneImm x nn, s => s.readV x ≠ nn
  | .seReg x y _, s => s.readV x = s.readV y
  | .sneReg x y _, s => s.readV x ≠ s.readV y
  | .skp x, s => s.keyDown (s.readV x).toNat = true
  | .sknp x, s => s.keyDown (s.readV x).toNat = false
  | _, _ => False

/-- `Fx0A` with no key down (rule R193). -/
def waitsForKey : Instr → State → Prop
  | .ldVxK _, s => ∀ k < 16, s.keyDown k = false
  | _, _ => False

/-- The absolute target of a jump, call or return (rule R28); none for the rest. -/
def absoluteTarget : Instr → State → Option Nat
  | .jp nnn, _ => some nnn.toNat
  | .call nnn, _ => some nnn.toNat
  | .jpV0 nnn, s => some (nnn.toNat + (s.readV 0).toNat)
  | .ret, s => some (s.stack.toList.getD (s.sp.val - 1) 0).toNat
  | _, _ => none

/-- How an instruction that does not fault leaves `PC`: the table of rule R28. -/
def PcRule (i : Instr) (s t : State) : Prop :=
  (∀ target, absoluteTarget i s = some target → t.pc.toNat = target) ∧
  (absoluteTarget i s = none →
    (skipTaken i s → t.pc = s.pc + 4) ∧
    (waitsForKey i s → t.pc = s.pc) ∧
    (¬ skipTaken i s → ¬ waitsForKey i s → t.pc = s.pc + 2))

/-- The registers an instruction may write: its destination, and `VF` where rule R22 lists a side effect. -/
def writtenRegs : Instr → List Reg
  | .ldImm x _ | .addImm x _ | .ldReg x _ | .orReg x _ | .andReg x _ | .xorReg x _ | .rnd x _ | .ldVxDT x | .ldVxK x => [x]
  | .addReg x _ | .subReg x _ | .shr x _ | .subn x _ | .shl x _ => [VF, x]
  | .drw _ _ _ | .addI _ => [VF]
  | .loadRegs x => (List.finRange 16).filter (fun r => r ≤ x)
  | _ => []

/-- A cell is covered by a set bit of the sprite that `Dxyn` draws in state `s` (rules R180, R182). -/
def spriteCovers (x y : Reg) (n : Nibble) (s : State) (c : Nat) : Prop :=
  ∃ r col, r < n.val ∧ col < 8 ∧ (s.mem.read (s.i.toNat + r)).getLsbD (7 - col) = true ∧
    c = ((s.readV x).toNat + col) % 64 + ((s.readV y).toNat + r) % 32 * 64

end Sys2Proof.Machine
end

