-- ==== Sys2Proof/WellFormed.lean ====
section
/-! DEFINITION. Well-formed instructions. The types of `Instr` already keep every operand in the range its
field can hold (a register index is below 16, an immediate has its width, rule R94), so what is left to check is the
CANONICAL FORM of rule R101: the bits the hardware ignores are zero, as an assembler emits them. The hardware itself
does not check this: decoding, encoding and execution cover the other forms too. -/

namespace Sys2Proof

/-- The ignored last nibble of `5xyn` and `9xyn` is 0 (rule R101; `93_implementation_defined.md` entry U10:
software must use `n = 0`). -/
def Instr.nibbleCanonical : Instr → Bool
  | .seReg _ _ n | .sneReg _ _ n => n = 0
  | _ => true

/-- The ignored `y` field of `8xy6` and `8xyE` is 0 (rule R101: "the canonical encoding has `y = 0`"). -/
def Instr.shiftCanonical : Instr → Bool
  | .shr _ y | .shl _ y => y = 0
  | _ => true

/-- An instruction in the canonical form of rule R101. -/
def Instr.wellFormed (i : Instr) : Bool := i.nibbleCanonical && i.shiftCanonical

/-- The canonical form of an instruction: the same instruction with its ignored bits zero (rule R101). -/
def Instr.canonical : Instr → Instr
  | .seReg x y _ => .seReg x y 0
  | .sneReg x y _ => .sneReg x y 0
  | .shr x _ => .shr x 0
  | .shl x _ => .shl x 0
  | i => i

end Sys2Proof
end

