-- ==== Sys2Proof/Certificates/Slice0/Obligations.lean ====
section
/-! DEFINITION. The statements for the provers. Frames, fault conditions and the tables of rules R22, R28 and R210 are in Safety.lean;
decisions of the spec that a statement rests on are named D<n> in its docstring. -/

open Sys2Proof Sys2Proof.Machine

/-! ## Encoding (30_encoding.md) -/

/-- Words written out bit by bit from the patterns of rule R96 decode to the instruction they stand for: at least one of every format and
every category, and one illegal word of each kind (rules R97 to R99). -/
def Obligations.SampleWordsDecode : Prop :=
  decodeWord 0b0000000011100000 = .ok .cls ∧
  decodeWord 0b0000000011101110 = .ok .ret ∧
  decodeWord 0b0001001000110100 = .ok (.jp 0x234) ∧
  decodeWord 0b0010001000001010 = .ok (.call 0x20A) ∧
  decodeWord 0b0011000100000000 = .ok (.seImm 1 0x00) ∧
  decodeWord 0b0100001000010001 = .ok (.sneImm 2 0x11) ∧
  decodeWord 0b0101000000010000 = .ok (.seReg 0 1 0) ∧
  decodeWord 0b0110000100000101 = .ok (.ldImm 1 0x05) ∧
  decodeWord 0b0111000111111111 = .ok (.addImm 1 0xFF) ∧
  decodeWord 0b1000111100010101 = .ok (.subReg 15 1) ∧
  decodeWord 0b1001000000010000 = .ok (.sneReg 0 1 0) ∧
  decodeWord 0b1010001100000000 = .ok (.ldI 0x300) ∧
  decodeWord 0b1011001100000000 = .ok (.jpV0 0x300) ∧
  decodeWord 0b1100000100001111 = .ok (.rnd 1 0x0F) ∧
  decodeWord 0b1101000100101111 = .ok (.drw 1 2 15) ∧
  decodeWord 0b1110001110011110 = .ok (.skp 3) ∧
  decodeWord 0b1111001001100101 = .ok (.loadRegs 2) ∧
  decodeWord 0b0000000000000000 = .error .category0 ∧
  decodeWord 0b1000000000011000 = .error .category8 ∧
  decodeWord 0b1110000010011111 = .error .categoryE ∧
  decodeWord 0b1111000000011111 = .error .categoryF

/-- Decoding the word of an instruction gives the instruction back, every operand at every value its field admits, the canonical and the
other forms alike (rules R93, R96); and the same on bytes, whatever follows them. -/
def Obligations.DecodeInvertsEncode : Prop :=
  ∀ (i : Instr) (rest : List Byte),
    decodeWord (encode i) = .ok i ∧ decodeBytes (encodeBytes i ++ rest) = .ok (i, rest)

/-- The word an instruction was decoded from is its encoding: no legal word has two readings and no bit of it is dropped. -/
def Obligations.EncodeInvertsDecode : Prop :=
  ∀ (w : Word) (i : Instr), decodeWord w = .ok i → encode i = w

/-- The decode procedure of rule R95 agrees with the match and mask columns of rule R96: a word decodes to the instruction of a row exactly
when `w & mask = match`. -/
def Obligations.DecodeAgreesWithMatchAndMask : Prop :=
  ∀ (w : Word) (row : OpcodeRow), row ∈ opcodeTable →
    (w &&& row.mask = row.bits ↔ ∃ i, decodeWord w = .ok i ∧ i.rowNumber = row.number)

/-- The illegal words are exactly those of rules R97, R98 and R99, each rejected by the name of its category; every other word is an
instruction, so decoding is total. -/
def Obligations.IllegalWordsAreThoseOfTheRules : Prop :=
  ∀ w : Word,
    (decodeWord w = .error .category0 ↔ w.toNat / 4096 = 0x0 ∧ w ≠ 0x00E0 ∧ w ≠ 0x00EE) ∧
    (decodeWord w = .error .category8 ↔ w.toNat / 4096 = 0x8 ∧ w.toNat % 16 ∈ [0x8, 0x9, 0xA, 0xB, 0xC, 0xD, 0xF]) ∧
    (decodeWord w = .error .categoryE ↔ w.toNat / 4096 = 0xE ∧ w.toNat % 256 ∉ [0x9E, 0xA1]) ∧
    (decodeWord w = .error .categoryF ↔
      w.toNat / 4096 = 0xF ∧ w.toNat % 256 ∉ [0x07, 0x0A, 0x15, 0x18, 0x1E, 0x29, 0x33, 0x55, 0x65]) ∧
    decodeWord w ≠ .error .truncated

/-- The don't-care bits (rule R101, decision D8): `5xyn` and `9xyn` with any `n`, and `8xy6` and `8xyE` with any `y`, decode with the same `x`
(and `y`) and execute exactly as their canonical forms. That "well formed" means the canonical form is the model's choice (log entry 11). -/
def Obligations.IgnoredBitsDoNotMatter : Prop :=
  (∀ (w : Word), w.toNat / 4096 = 0x5 → decodeWord w = .ok (.seReg (fieldX w) (fieldY w) (fieldN w))) ∧
  (∀ (w : Word), w.toNat / 4096 = 0x9 → decodeWord w = .ok (.sneReg (fieldX w) (fieldY w) (fieldN w))) ∧
  (∀ (w : Word), w.toNat / 4096 = 0x8 → w.toNat % 16 = 0x6 → decodeWord w = .ok (.shr (fieldX w) (fieldY w))) ∧
  (∀ (w : Word), w.toNat / 4096 = 0x8 → w.toNat % 16 = 0xE → decodeWord w = .ok (.shl (fieldX w) (fieldY w))) ∧
  (∀ (i : Instr) (s : State), exec i s = exec i.canonical s ∧ i.canonical.wellFormed = true)

/-! ## The step (rules R64, R120, R210 to R220) -/

/-- The instruction fetch (rule R64): the byte at `PC` is the high byte; a fetch whose second byte would lie beyond `0xFFF` raises
`FetchOutOfBounds` (decision D9). A fetch answers a word and no state, so it has no side effect. -/
def Obligations.FetchCombinesTwoBytesBigEndian : Prop :=
  ∀ s : State,
    (s.pc.toNat + 1 ≤ 0xFFF →
      ∃ w, s.fetch = some w ∧ w.toNat = (s.mem.read s.pc.toNat).toNat * 256 + (s.mem.read (s.pc.toNat + 1)).toNat) ∧
    (0xFFF < s.pc.toNat + 1 → s.isRunning →
      coreStep s = .next { s with status := .halted .fetchOutOfBounds 0x0000 s.pc })

/-- When the two bytes at `PC` decode to an instruction, the instruction step of a running machine is `exec` of that instruction at that
state; so is `step`, when an instruction step is the next move: one that is lined up (log entry 5), or one that the pacing gives when none
is (log entry 16; under the free pacing the next move is the free value of EnvironmentMovesAreWholeTransitions). The step adds nothing
around `exec`: each instruction sets `PC` itself (rules R27, R120). -/
def Obligations.StepRunsTheDecodedInstruction : Prop :=
  ∀ (s : State) (i : Instr), s.isRunning → s.pc.toNat + 1 ≤ 0xFFF →
    decodeBytes [s.mem.read s.pc.toNat, s.mem.read (s.pc.toNat + 1)] = .ok (i, []) →
    coreStep s = exec i s ∧
    (∀ rest, s.env = .step :: rest → step s = exec i { s with env := rest }) ∧
    (s.env = [] → s.pacing = .steps → step s = exec i s) ∧
    (∀ n left, s.env = [] → s.pacing = .every n (left + 1) → step s = exec i { s with pacing := .every n left })

/-- What `step` does (rules R226, R227, R229, R257). A move lined up (log entry 5) is the next transition, whole, whichever it is: an
instruction step with its faults, a tick, a key write, a `present_done`, a reset or a boot; `quit` is never followed by anything. With none
lined up the pacing gives the move (log entry 16): an instruction step; an instruction step or, when its turn has come, a tick; or the next
move of the free schedule. -/
def Obligations.EnvironmentMovesAreWholeTransitions : Prop :=
  ∀ (s : State) (rest : List Move),
    (∀ m, m ≠ .quit → s.env = m :: rest → step s = takeMove m { s with env := rest }) ∧
    (s.env = .quit :: rest → step s = .next s) ∧
    (s.env = .step :: rest → step s = coreStep { s with env := rest }) ∧
    (s.env = .tick :: rest → step s = .next { s with env := rest }.tick) ∧
    (∀ k b, s.env = .setKey k b :: rest → step s = .next { s with env := rest, key := s.key.set k.val b }) ∧
    (s.env = .presentDone :: rest → step s = .next { s with env := rest, drawFlag := false }) ∧
    (s.env = .reset :: rest → step s = .next { s with env := rest }.applyReset) ∧
    (∀ image, s.env = .boot image :: rest → step s = loadRom image { s with env := rest }.applyReset) ∧
    (s.env = [] → s.pacing = .steps → step s = coreStep s) ∧
    (∀ n left, s.env = [] → s.pacing = .every n (left + 1) → step s = coreStep { s with pacing := .every n left }) ∧
    (∀ n, s.env = [] → s.pacing = .every n 0 → step s = .next { s with pacing := .every n n }.tick) ∧
    (∀ k, s.env = [] → s.pacing = .free k → step s =
      if Config.schedule k = .quit then .next s else takeMove (Config.schedule k) { s with pacing := .free (k + 1) })

/-- A word that is no instruction halts the machine and records the word and the program counter; the commonest case is the word `0x0000`
of zeroed memory (rules R100, R215). -/
def Obligations.IllegalWordHalts : Prop :=
  (∀ (s : State) (w : Word) (e : Reject), s.isRunning → s.fetch = some w → decodeWord w = .error e →
    coreStep s = .next { s with status := .halted .illegalInstruction w s.pc }) ∧
  (∀ s : State, s.isRunning → s.fetch = some 0x0000 →
    coreStep s = .next { s with status := .halted .illegalInstruction 0x0000 s.pc })

/-- Faults are precise (rule R212, decision D21): a step of a running machine that ends halted has changed the status and nothing else, and the
record holds the fetched word (`0x0000` where none was read) and the program counter. -/
def Obligations.FaultsArePreciseAndRecorded : Prop :=
  ∀ s t : State, s.isRunning → coreStep s = .next t → ¬ t.isRunning →
    ∃ kind word, t = { s with status := .halted kind word s.pc } ∧
      (s.fetch = some word ∨ s.fetch = none ∧ word = 0x0000 ∧ kind = .fetchOutOfBounds)

/-- Which instruction raises which fault, and when: the table of rule R210, `faultOf` in Safety.lean. An instruction whose condition does not
hold leaves the machine running, so "no other instruction and no other condition raises a fault", and every instruction answers a next
state in every state. -/
def Obligations.FaultsAreExactlyTheTable : Prop :=
  ∀ (i : Instr) (s : State), s.isRunning →
    ∃ t, exec i s = .next t ∧
      t.status = match faultOf i s with
        | none => .running
        | some kind => .halted kind (encode i) s.pc

/-- The halted state (rule R213, decisions D21, D33): a step does nothing, a tick does nothing, the host's reads still work, key writes are
accepted, and only a reset returns the machine to running. -/
def Obligations.HaltedUntilReset : Prop :=
  ∀ (s : State) (kind : FaultKind) (word pc : Word), s.status = .halted kind word pc →
    coreStep s = .next s ∧ s.tick = s ∧ s.readStatus = .halted kind word pc ∧
    (∀ c, s.readFb c = s.fb.lit c.val) ∧ s.readST = s.st ∧
    (∀ k b, takeMove (.setKey k b) s = .next { s with key := s.key.set k.val b }) ∧
    (∃ t, takeMove .reset s = .next t ∧ t.isRunning) ∧
    (∀ m t, takeMove m s = .next t → t.isRunning → m = .reset ∨ ∃ image, m = .boot image)

/-- How every instruction leaves `PC`: the table of rule R28 (`PcRule` in Safety.lean) for an instruction that does not fault, and `PC`
unchanged by one that does. -/
def Obligations.ProgramCounterFollowsTheTable : Prop :=
  ∀ (i : Instr) (s : State),
    (faultOf i s = none → ∃ t, exec i s = .next t ∧ PcRule i s t) ∧
    (faultOf i s ≠ none → ∃ t, exec i s = .next t ∧ t.pc = s.pc)

/-! ## Reset, the host and the tick (rules R43, R228, R250 to R257) -/

/-- The reset values (rules R43, R250; decision D16), from any state, halted or not. The five bytes of glyph 0 are the source's; the other
75 font bytes are the machine's own parameter, whatever they are (log entry 2). What the environment does next and the count of draws are
the model's own fields and stay (log entries 5, 16). -/
def Obligations.ResetSetsEveryElement : Prop :=
  ∀ s : State, ∃ t, takeMove .reset s = .next t ∧
    (∀ r, t.readV r = 0) ∧ t.i = 0 ∧ t.pc = 0x200 ∧ t.sp.val = 0 ∧
    (∀ (k : Nat) (h : k < 16), t.stack[k] = 0) ∧ (∀ c < 2048, t.fb.lit c = false) ∧
    (∀ k < 16, t.keyDown k = false) ∧ t.dt = 0 ∧ t.st = 0 ∧ t.drawFlag = false ∧ t.isRunning ∧
    t.mem.read 0 = 0xF0 ∧ t.mem.read 1 = 0x90 ∧ t.mem.read 2 = 0x90 ∧ t.mem.read 3 = 0x90 ∧ t.mem.read 4 = 0xF0 ∧
    (∀ (a : Nat) (h : 5 ≤ a ∧ a < 80), t.mem.read a = s.mem.font[a - 5]) ∧
    (∀ a, 80 ≤ a → a < 4096 → t.mem.read a = 0)

/-- `load_rom` (rule R253): the image byte for byte from `0x200` and nothing else; an image above 3584 bytes is refused. -/
def Obligations.LoadRomCopiesTheImage : Prop :=
  ∀ (image : List Byte) (s : State),
    (image.length ≤ 3584 → ∃ t, loadRom image s = .next t ∧
      (∀ (k : Nat) (h : k < image.length), t.mem.read (0x200 + k) = image[k]) ∧
      SameMemoryOutside 0x200 image.length s t ∧ t = { s with mem := t.mem } ∧ t.mem.font = s.mem.font) ∧
    (3584 < image.length → loadRom image s = .refused (.imageTooLong image.length))

/-- The boot order (rule R254): after `reset` and `load_rom` the machine runs from `0x200` with the image there, and every other byte as reset
leaves it, whatever the state before. The values that reset leaves are those of decision D16 of the spec (rules R43, R250, R251; log entry 1),
and that a load happens in this move alone is the model's form (log entry 10). -/
def Obligations.BootStartsTheImage : Prop :=
  ∀ (image : List Byte) (s : State), image.length ≤ 3584 →
    ∃ t, takeMove (.boot image) s = .next t ∧ t.isRunning ∧ t.pc = 0x200 ∧ t.sp.val = 0 ∧
      (∀ (k : Nat) (h : k < image.length), t.mem.read (0x200 + k) = image[k]) ∧
      SameMemoryOutside 0x200 image.length s.applyReset t

/-- `set_key(k, b)` (rule R255) writes one key slot and nothing else. -/
def Obligations.SetKeyWritesOneSlot : Prop :=
  ∀ (k : Fin 16) (b : Bool) (s : State), ∃ t, takeMove (.setKey k b) s = .next t ∧
    t.keyDown k.val = b ∧ (∀ j, j ≠ k.val → t.keyDown j = s.keyDown j) ∧ t = { s with key := t.key }

/-- One tick (rule R228, decision D33): both timers down by one and never below zero, and nothing else; nothing at all while halted. -/
def Obligations.TickCountsBothTimersDown : Prop :=
  ∀ s : State,
    (s.isRunning → ∃ d e : Byte, s.tick = { s with dt := d, st := e } ∧
      d.toNat = s.dt.toNat - 1 ∧ e.toNat = s.st.toNat - 1) ∧
    (¬ s.isRunning → s.tick = s)

/-! ## Invariants and rules over all instructions -/

/-- The reset state has the invariant of Safety.lean: `PC` and live return addresses bounded (rule R45), and two clauses of the model's own,
memory in its canonical form (log entry 9) and the record of a halt exact. That state is the one of decision D16 (log entry 1). -/
def Obligations.ResetStateHasInvariant : Prop := Inv State.reset

/-- Every transition keeps the invariant: an instruction, a fault, a tick, a host operation, a reset or a boot, from EVERY state that has it.
The bounds on `PC` and on live return addresses are rule R45 (an inference of the spec, from R29); that the record of a halt names the
present `PC` is from rule R212; that memory stays in its canonical form is the model's own clause (log entry 9, DESIGN CHOICE). -/
def Obligations.StepKeepsInvariant : Prop :=
  ∀ s t : State, Inv s → step s = .next t → Inv t

/-- No instruction counts a timer down, and each timer is written by one instruction only: `DT` by `Fx15`, `ST` by `Fx18` (rules R33, R34, R230;
conflict C1). -/
def Obligations.InstructionsNeverCountTimers : Prop :=
  ∀ (i : Instr) (s t : State), exec i s = .next t →
    (t.dt = s.dt ∨ ∃ x, i = .ldDTVx x) ∧ (t.st = s.st ∨ ∃ x, i = .ldSTVx x)

/-- Only `Fx33` and `Fx55` write memory, `00E0` and `Dxyn` the framebuffer and the draw flag, `2nnn` and `00EE` the stack pointer, `2nnn` the
slots, `Annn`, `Fx1E` and `Fx29` the index register; no instruction writes a key slot or changes the font parameter or what the
environment does next
(rules R25, R30, R35, R37, R38, R65). -/
def Obligations.OnlyTheListedInstructionsWrite : Prop :=
  ∀ (i : Instr) (s t : State), exec i s = .next t →
    (SameMemory s t ∨ ∃ x, i = .ldB x ∨ i = .storeRegs x) ∧
    ((t.fb = s.fb ∧ t.drawFlag = s.drawFlag) ∨ i = .cls ∨ ∃ x y n, i = .drw x y n) ∧
    (t.sp = s.sp ∨ i = .ret ∨ ∃ nnn, i = .call nnn) ∧
    (t.stack = s.stack ∨ ∃ nnn, i = .call nnn) ∧
    (t.i = s.i ∨ (∃ nnn, i = .ldI nnn) ∨ ∃ x, i = .addI x ∨ i = .ldF x) ∧
    t.key = s.key ∧ t.mem.font = s.mem.font ∧ t.env = s.env ∧ t.pacing = s.pacing

/-- An instruction writes no general register but its destination and, where rule R22 lists a side effect, `VF` (`writtenRegs` in
Safety.lean). -/
def Obligations.RegistersChangeOnlyWhereListed : Prop :=
  ∀ (i : Instr) (s t : State), exec i s = .next t → SameRegs (writtenRegs i) s t

/-- No instruction reads `ST` or the draw flag (rules R34, R38): an instruction run from a state with another `ST` and another draw flag ends
in the same state but for those two; each of them ends as the instruction leaves it when it writes it (`Fx18`; `00E0`, and `Dxyn` when it
does not fault), and otherwise as it was. -/
def Obligations.SoundTimerAndDrawFlagAreNeverRead : Prop :=
  ∀ (i : Instr) (s t : State) (b : Byte) (f : Bool), exec i s = .next t →
    ∃ u, exec i { s with st := b, drawFlag := f } = .next u ∧
      u = { t with st := u.st, drawFlag := u.drawFlag } ∧
      ((∃ x, i = .ldSTVx x) → u.st = t.st) ∧ ((∀ x, i ≠ .ldSTVx x) → u.st = b) ∧
      (i = .cls ∨ (∃ x y n, i = .drw x y n) ∧ faultOf i s = none → u.drawFlag = true ∧ t.drawFlag = true) ∧
      (i ≠ .cls → (∀ x y n, i ≠ .drw x y n) ∨ faultOf i s ≠ none → u.drawFlag = f ∧ t.drawFlag = s.drawFlag)

/-! ## Control transfer (40_flow.md) -/

/-- `1nnn` (rule R121): `PC` takes `nnn`; no register is read or written. -/
def Obligations.JumpSetsProgramCounter : Prop :=
  ∀ (nnn : BitVec 12) (s : State), ∃ t, exec (.jp nnn) s = .next t ∧ t.pc.toNat = nnn.toNat ∧ Frame [] [.pc] s t

/-- A jump to itself (rule R264; the convention is decision D28, no behaviour of the hardware): from then on a step changes nothing at all,
and the state after a tick is still one that runs and stands at the same jump. -/
def Obligations.SelfJumpChangesNothing : Prop :=
  ∀ s : State, s.isRunning → s.atSelfJump → coreStep s = .next s ∧ s.tick.isRunning ∧ s.tick.atSelfJump ∧ s.tick.pc = s.pc

/-- `Bnnn` (rule R124): `PC` takes the true sum of `nnn` and `V0`, not reduced to 12 bits (decision D9). -/
def Obligations.JumpWithOffsetAddsV0 : Prop :=
  ∀ (nnn : BitVec 12) (s : State), ∃ t, exec (.jpV0 nnn) s = .next t ∧
    t.pc.toNat = nnn.toNat + (s.readV 0).toNat ∧ Frame [] [.pc] s t

/-- `2nnn` (rules R122, R216; decision D4): the return address `PC + 2` goes to slot `SP`, the other slots stay, `SP` counts up and `PC` takes
`nnn`; with all 16 slots in use it raises `StackOverflow` and nothing else changes. -/
def Obligations.CallPushesReturnAddress : Prop :=
  ∀ (nnn : BitVec 12) (s : State),
    (s.sp.val < 16 → ∃ t, exec (.call nnn) s = .next t ∧ t.pc.toNat = nnn.toNat ∧ t.sp.val = s.sp.val + 1 ∧
      (∀ (k : Nat) (h : k < 16), t.stack[k] = if k = s.sp.val then s.pc + 2 else s.stack[k]) ∧
      Frame [] [.pc, .sp, .stack] s t) ∧
    (s.sp.val = 16 → exec (.call nnn) s = .next { s with status := .halted .stackOverflow (encode (.call nnn)) s.pc })

/-- `00EE` (rules R123, R217): `SP` counts down and `PC` takes the slot it then names, with nothing added; the slot keeps its value; with an
empty stack it raises `StackUnderflow` and nothing else changes. -/
def Obligations.ReturnPopsReturnAddress : Prop :=
  ∀ s : State,
    (0 < s.sp.val → ∃ t, exec .ret s = .next t ∧ t.sp.val = s.sp.val - 1 ∧
      (∀ (k : Nat) (h : k < 16), k + 1 = s.sp.val → t.pc = s.stack[k]) ∧ Frame [] [.pc, .sp] s t) ∧
    (s.sp.val = 0 → exec .ret s = .next { s with status := .halted .stackUnderflow 0x00EE s.pc })

/-- The two stack operations (rule R31): `push` fails exactly on a full stack and `pop` exactly on an empty one; a `push` followed by a `pop`
answers the value pushed and leaves `SP` as it was. -/
def Obligations.PushThenPopRoundTrip : Prop :=
  ∀ (w : Word) (s : State),
    (s.push w = none ↔ s.sp.val = 16) ∧ (s.pop = none ↔ s.sp.val = 0) ∧
    (s.sp.val < 16 → ∃ t u, s.push w = some t ∧ t.sp.val = s.sp.val + 1 ∧ t.pop = some (w, u) ∧ u.sp = s.sp)

/-- A call that does not overflow, followed by a return, resumes at the instruction after the call with the call stack as deep as before
and every register, every byte of memory and every part but `PC` and the slots as they were (rules R122, R123; source property S10). -/
def Obligations.CallThenReturnResumes : Prop :=
  ∀ (nnn : BitVec 12) (s : State), s.sp.val < 16 →
    ∃ t u, exec (.call nnn) s = .next t ∧ exec .ret t = .next u ∧ u.pc = s.pc + 2 ∧ Frame [] [.pc, .stack] s u

/-- `3xnn` and `4xnn` (rules R125, R126): `PC + 4` when the condition holds, else `PC + 2`. -/
def Obligations.ImmediateSkips : Prop :=
  ∀ (x : Reg) (nn : Byte) (s : State),
    (∃ t, exec (.seImm x nn) s = .next t ∧ t.pc = (if s.readV x = nn then s.pc + 4 else s.pc + 2) ∧ Frame [] [.pc] s t) ∧
    (∃ t, exec (.sneImm x nn) s = .next t ∧ t.pc = (if s.readV x = nn then s.pc + 2 else s.pc + 4) ∧ Frame [] [.pc] s t)

/-- `5xy0` and `9xy0` (rules R127, R128): `PC + 4` when the condition holds, else `PC + 2`; any last nibble. -/
def Obligations.RegisterSkips : Prop :=
  ∀ (x y : Reg) (n : Nibble) (s : State),
    (∃ t, exec (.seReg x y n) s = .next t ∧
      t.pc = (if s.readV x = s.readV y then s.pc + 4 else s.pc + 2) ∧ Frame [] [.pc] s t) ∧
    (∃ t, exec (.sneReg x y n) s = .next t ∧
      t.pc = (if s.readV x = s.readV y then s.pc + 2 else s.pc + 4) ∧ Frame [] [.pc] s t)

/-! ## Loads, arithmetic, logic (41_alu.md) -/

/-- `6xnn`, `7xnn` and `8xy0` (rules R140, R141, R142): load, wrapping add without a flag, move. -/
def Obligations.LoadAddImmediateAndMove : Prop :=
  ∀ (x y : Reg) (nn : Byte) (s : State),
    (∃ t, exec (.ldImm x nn) s = .next t ∧ t.readV x = nn ∧ t.pc = s.pc + 2 ∧ Frame [x] [.pc] s t) ∧
    (∃ t, exec (.addImm x nn) s = .next t ∧ (t.readV x).toNat = ((s.readV x).toNat + nn.toNat) % 256 ∧
      t.pc = s.pc + 2 ∧ Frame [x] [.pc] s t) ∧
    (∃ t, exec (.ldReg x y) s = .next t ∧ t.readV x = s.readV y ∧ t.pc = s.pc + 2 ∧ Frame [x] [.pc] s t)

/-- `8xy1`, `8xy2` and `8xy3` (rules R143, R144, R145): bit by bit, and no flag. -/
def Obligations.LogicIsBitwise : Prop :=
  ∀ (x y : Reg) (s : State),
    (∃ t, exec (.orReg x y) s = .next t ∧
      (∀ j, (t.readV x).getLsbD j = ((s.readV x).getLsbD j || (s.readV y).getLsbD j)) ∧ t.pc = s.pc + 2 ∧ Frame [x] [.pc] s t) ∧
    (∃ t, exec (.andReg x y) s = .next t ∧
      (∀ j, (t.readV x).getLsbD j = ((s.readV x).getLsbD j && (s.readV y).getLsbD j)) ∧ t.pc = s.pc + 2 ∧ Frame [x] [.pc] s t) ∧
    (∃ t, exec (.xorReg x y) s = .next t ∧
      (∀ j, (t.readV x).getLsbD j = ((s.readV x).getLsbD j ^^ (s.readV y).getLsbD j)) ∧ t.pc = s.pc + 2 ∧ Frame [x] [.pc] s t)

/-- `8xy4` (rule R146): the wrapped sum in `Vx`; unless `x` is `F`, the carry of the true sum in `VF`; when `x` is `F` the sum overwrites the
carry (rule R23). Operands are the values before the instruction, `VF` among them (rule R24, decision D6). -/
def Obligations.AddSetsCarry : Prop :=
  ∀ (x y : Reg) (s : State), ∃ t, exec (.addReg x y) s = .next t ∧
    (t.readV x).toNat = ((s.readV x).toNat + (s.readV y).toNat) % 256 ∧
    (x ≠ VF → t.readV VF = if 255 < (s.readV x).toNat + (s.readV y).toNat then 1 else 0) ∧
    t.pc = s.pc + 2 ∧ Frame [x, VF] [.pc] s t

/-- `8xy5` and `8xy7` (rules R147, R149): the wrapped difference in `Vx`; unless `x` is `F`, 1 in `VF` when there is no borrow, equal operands
included, else 0. -/
def Obligations.SubtractSetsNoBorrow : Prop :=
  ∀ (x y : Reg) (s : State),
    (∃ t, exec (.subReg x y) s = .next t ∧
      (t.readV x).toNat = ((s.readV x).toNat + 256 - (s.readV y).toNat) % 256 ∧
      (x ≠ VF → t.readV VF = if (s.readV y).toNat ≤ (s.readV x).toNat then 1 else 0) ∧
      t.pc = s.pc + 2 ∧ Frame [x, VF] [.pc] s t) ∧
    (∃ t, exec (.subn x y) s = .next t ∧
      (t.readV x).toNat = ((s.readV y).toNat + 256 - (s.readV x).toNat) % 256 ∧
      (x ≠ VF → t.readV VF = if (s.readV x).toNat ≤ (s.readV y).toNat then 1 else 0) ∧
      t.pc = s.pc + 2 ∧ Frame [x, VF] [.pc] s t)

/-- `8xy6` and `8xyE` (rules R148, R150): a logical shift of `Vx` by one, whatever `y` is; unless `x` is `F`, the bit shifted out in `VF`. -/
def Obligations.ShiftsMoveOneBitOut : Prop :=
  ∀ (x y : Reg) (s : State),
    (∃ t, exec (.shr x y) s = .next t ∧ (t.readV x).toNat = (s.readV x).toNat / 2 ∧
      (x ≠ VF → (t.readV VF).toNat = (s.readV x).toNat % 2) ∧ t.pc = s.pc + 2 ∧ Frame [x, VF] [.pc] s t) ∧
    (∃ t, exec (.shl x y) s = .next t ∧ (t.readV x).toNat = (s.readV x).toNat * 2 % 256 ∧
      (x ≠ VF → (t.readV VF).toNat = (s.readV x).toNat / 128) ∧ t.pc = s.pc + 2 ∧ Frame [x, VF] [.pc] s t)

/-- `Cxnn` (rule R152): `Vx` takes the byte drawn, masked with `nn`, so every bit that is 0 in `nn` is 0 in the result; the draw is counted, so
the next one is another. The byte drawn is the model's free value `Config.randomByte` at the present count, of which nothing is known
(log entry 3). -/
def Obligations.RandomByteIsMasked : Prop :=
  ∀ (x : Reg) (nn : Byte) (s : State), ∃ t, exec (.rnd x nn) s = .next t ∧
    t.readV x = Config.randomByte s.draws &&& nn ∧ (t.readV x &&& ~~~nn = 0) ∧ (nn = 0 → t.readV x = 0) ∧
    t.draws = s.draws + 1 ∧ t.pc = s.pc + 2 ∧ Frame [x] [.pc, .draws] s t

/-! ## Index register and memory (42_index_memory.md) -/

/-- `Annn` and `Fx29` (rules R161, R163): `I` takes `nnn`, or five times the whole of `Vx` (decision D30). -/
def Obligations.SettingTheIndexRegister : Prop :=
  ∀ (nnn : BitVec 12) (x : Reg) (s : State),
    (∃ t, exec (.ldI nnn) s = .next t ∧ t.i.toNat = nnn.toNat ∧ t.pc = s.pc + 2 ∧ Frame [] [.i, .pc] s t) ∧
    (∃ t, exec (.ldF x) s = .next t ∧ t.i.toNat = (s.readV x).toNat * 5 ∧ t.pc = s.pc + 2 ∧ Frame [] [.i, .pc] s t)

/-- `Fx1E` (rule R162, decision D14): `I` takes the sum modulo 65536, and `VF` is 1 exactly when the true sum exceeds `0xFFF`. -/
def Obligations.AddToIndexSetsFlag : Prop :=
  ∀ (x : Reg) (s : State), ∃ t, exec (.addI x) s = .next t ∧
    t.i.toNat = (s.i.toNat + (s.readV x).toNat) % 65536 ∧
    t.readV VF = (if 0xFFF < s.i.toNat + (s.readV x).toNat then 1 else 0) ∧
    t.pc = s.pc + 2 ∧ Frame [VF] [.i, .pc] s t

/-- `Fx33` (rule R164): hundreds, tens and units of `Vx` at `I`, `I + 1` and `I + 2`, nothing else stored, and `I` and `Vx` unchanged; beyond
`0xFFF` it raises `MemoryOutOfBounds` and nothing is written (decision D10). -/
def Obligations.StoreDecimalDigits : Prop :=
  ∀ (x : Reg) (s : State),
    (s.i.toNat + 2 ≤ 0xFFF → ∃ t, exec (.ldB x) s = .next t ∧
      (t.mem.read s.i.toNat).toNat = (s.readV x).toNat / 100 ∧
      (t.mem.read (s.i.toNat + 1)).toNat = (s.readV x).toNat / 10 % 10 ∧
      (t.mem.read (s.i.toNat + 2)).toNat = (s.readV x).toNat % 10 ∧
      t.pc = s.pc + 2 ∧ StoreFrame s.i.toNat 3 s t) ∧
    (0xFFF < s.i.toNat + 2 → exec (.ldB x) s = .next { s with status := .halted .memoryOutOfBounds (encode (.ldB x)) s.pc })

/-- `Fx55` (rules R165, R168): `V0` to `Vx` at `I` to `I + x`, nothing else stored, and `I` unchanged (decision D15); beyond `0xFFF` it raises
`MemoryOutOfBounds` and nothing is written. -/
def Obligations.StoreRegistersThroughVx : Prop :=
  ∀ (x : Reg) (s : State),
    (s.i.toNat + x.val ≤ 0xFFF → ∃ t, exec (.storeRegs x) s = .next t ∧
      (∀ r : Reg, r ≤ x → t.mem.read (s.i.toNat + r.val) = s.readV r) ∧
      t.pc = s.pc + 2 ∧ StoreFrame s.i.toNat (x.val + 1) s t) ∧
    (0xFFF < s.i.toNat + x.val →
      exec (.storeRegs x) s = .next { s with status := .halted .memoryOutOfBounds (encode (.storeRegs x)) s.pc })

/-- `Fx65` (rules R166, R168): `V0` to `Vx` take the bytes at `I` to `I + x`, and the registers above `Vx`, memory and `I` are unchanged; beyond
`0xFFF` it raises `MemoryOutOfBounds` and no register is changed. -/
def Obligations.LoadRegistersThroughVx : Prop :=
  ∀ (x : Reg) (s : State),
    (s.i.toNat + x.val ≤ 0xFFF → ∃ t, exec (.loadRegs x) s = .next t ∧
      (∀ r : Reg, t.readV r = if r ≤ x then s.mem.read (s.i.toNat + r.val) else s.readV r) ∧
      t.pc = s.pc + 2 ∧ Frame ((List.finRange 16).filter fun r => r ≤ x) [.pc] s t) ∧
    (0xFFF < s.i.toNat + x.val →
      exec (.loadRegs x) s = .next { s with status := .halted .memoryOutOfBounds (encode (.loadRegs x)) s.pc })

/-- `Fx55` followed by `Fx65` with the same `x` and `I` restores `V0` to `Vx` exactly, whatever the registers hold in between
(rule R166, corner cases). -/
def Obligations.StoreThenLoadRestoresRegisters : Prop :=
  ∀ (x : Reg) (s : State) (v : Vector Byte 16), s.i.toNat + x.val ≤ 0xFFF →
    ∃ t u, exec (.storeRegs x) s = .next t ∧ exec (.loadRegs x) { t with v := v } = .next u ∧
      ∀ r : Reg, r ≤ x → u.readV r = s.readV r

/-- A store is seen by every later fetch, wherever it fetches (rule R77, an inference of the spec): after `Fx55` or `Fx33` a fetch at any `p`
combines the two bytes there as the store has left them, and `p = PC + 2` is the very next fetch. So, after `Fx55` with `I` at the next
instruction, the word fetched next is `V0` and `V1`, high byte first. -/
def Obligations.StoredBytesAreFetchedNext : Prop :=
  ∀ (x : Reg) (s : State),
    (s.i.toNat + x.val ≤ 0xFFF → ∃ t, exec (.storeRegs x) s = .next t ∧ t.pc = s.pc + 2 ∧
      ∀ p : Word, p.toNat + 1 ≤ 0xFFF → ∃ w, ({ t with pc := p } : State).fetch = some w ∧
        let bytes := ((List.finRange 16).take (x.val + 1)).map fun r => s.readV r
        w.toNat = (byteAfterStore s.i.toNat bytes s p.toNat).toNat * 256 +
          (byteAfterStore s.i.toNat bytes s (p.toNat + 1)).toNat) ∧
    (s.i.toNat + 2 ≤ 0xFFF → ∃ t, exec (.ldB x) s = .next t ∧ t.pc = s.pc + 2 ∧
      ∀ p : Word, p.toNat + 1 ≤ 0xFFF → ∃ w, ({ t with pc := p } : State).fetch = some w ∧
        let bytes := [(s.readV x).toNat / 100, (s.readV x).toNat / 10 % 10, (s.readV x).toNat % 10].map (BitVec.ofNat 8)
        w.toNat = (byteAfterStore s.i.toNat bytes s p.toNat).toNat * 256 +
          (byteAfterStore s.i.toNat bytes s (p.toNat + 1)).toNat) ∧
    (1 ≤ x.val → s.i = s.pc + 2 → s.i.toNat + x.val ≤ 0xFFF →
      ∃ t w, exec (.storeRegs x) s = .next t ∧ t.fetch = some w ∧
        w.toNat = (s.readV 0).toNat * 256 + (s.readV 1).toNat)

/-- Out-of-range data accesses (rules R66, R218; decision D10): the whole range is checked, and an instruction that would touch an address above
`0xFFF` raises `MemoryOutOfBounds` and changes nothing else; `Dxyn` with `n = 0` cannot raise it, wherever `I` points. -/
def Obligations.OutOfRangeAccessFaults : Prop :=
  ∀ (x y : Reg) (n : Nibble) (s : State),
    (0xFFF < s.i.toNat + 2 → exec (.ldB x) s = .next { s with status := .halted .memoryOutOfBounds (encode (.ldB x)) s.pc }) ∧
    (0xFFF < s.i.toNat + x.val →
      exec (.storeRegs x) s = .next { s with status := .halted .memoryOutOfBounds (encode (.storeRegs x)) s.pc } ∧
      exec (.loadRegs x) s = .next { s with status := .halted .memoryOutOfBounds (encode (.loadRegs x)) s.pc }) ∧
    (1 ≤ n.val → 0xFFF < s.i.toNat + n.val - 1 →
      exec (.drw x y n) s = .next { s with status := .halted .memoryOutOfBounds (encode (.drw x y n)) s.pc }) ∧
    (∃ t, exec (.drw x y 0) s = .next t ∧ t.status = s.status)

/-! ## Display (43_display.md) -/

/-- `00E0` (rule R181): every cell clear, the draw flag set (decision D24), no register written. -/
def Obligations.ClearScreenClearsEveryCell : Prop :=
  ∀ s : State, ∃ t, exec .cls s = .next t ∧ (∀ c < 2048, t.fb.lit c = false) ∧ t.drawFlag = true ∧
    t.pc = s.pc + 2 ∧ Frame [] [.pc, .fb, .drawFlag] s t

/-- `Dxyn` (rule R182, decisions D5, D6, D24): exactly the cells under set sprite bits (`spriteCovers` in Safety.lean, with per-axis wrap and the
coordinates as they were before the instruction) are flipped; `VF` is 1 exactly when one of them was lit before; the draw flag is set; rows
beyond `0xFFF` raise `MemoryOutOfBounds` and nothing else changes. -/
def Obligations.DrawSpriteFlipsCoveredCells : Prop :=
  ∀ (x y : Reg) (n : Nibble) (s : State),
    (n.val = 0 ∨ s.i.toNat + n.val - 1 ≤ 0xFFF → ∃ t, exec (.drw x y n) s = .next t ∧
      (∀ c < 2048, (spriteCovers x y n s c → t.fb.lit c = !s.fb.lit c) ∧
        (¬ spriteCovers x y n s c → t.fb.lit c = s.fb.lit c)) ∧
      ((∃ c < 2048, spriteCovers x y n s c ∧ s.fb.lit c = true) → t.readV VF = 1) ∧
      ((∀ c < 2048, spriteCovers x y n s c → s.fb.lit c = false) → t.readV VF = 0) ∧
      t.drawFlag = true ∧ t.pc = s.pc + 2 ∧ Frame [VF] [.pc, .fb, .drawFlag] s t) ∧
    (1 ≤ n.val → 0xFFF < s.i.toNat + n.val - 1 →
      exec (.drw x y n) s = .next { s with status := .halted .memoryOutOfBounds (encode (.drw x y n)) s.pc })

/-- Drawing the same sprite twice at the same place leaves the framebuffer exactly as it was, and the second draw sets `VF` exactly when the
first lit a cell that was clear (rule R183 (a)). The precondition is the rule's: `Vx` and `Vy` are the same at both draws. -/
def Obligations.DrawingTwiceRestoresFramebuffer : Prop :=
  ∀ (x y : Reg) (n : Nibble) (s t : State), n.val = 0 ∨ s.i.toNat + n.val - 1 ≤ 0xFFF →
    exec (.drw x y n) s = .next t → t.readV x = s.readV x → t.readV y = s.readV y →
    ∃ u, exec (.drw x y n) t = .next u ∧ u.fb = s.fb ∧
      (u.readV VF = 1 ↔ ∃ c < 2048, spriteCovers x y n s c ∧ s.fb.lit c = false) ∧
      (u.readV VF = 1 ∨ u.readV VF = 0)

/-- After `00E0`, a draw meets no lit cell: `VF` is 0 and exactly the cells of its set bits are lit (rule R183 (b)). -/
def Obligations.DrawAfterClearShowsTheSprite : Prop :=
  ∀ (x y : Reg) (n : Nibble) (s : State), n.val = 0 ∨ s.i.toNat + n.val - 1 ≤ 0xFFF →
    ∃ t u, exec .cls s = .next t ∧ exec (.drw x y n) t = .next u ∧ u.readV VF = 0 ∧
      ∀ c < 2048, u.fb.lit c = true ↔ spriteCovers x y n s c

/-! ## Keypad and timers (44_keypad_timers.md) -/

/-- `Ex9E` and `ExA1` (rules R191, R192, R219; decision D11): skip on the key whose index is the whole of `Vx`, down or up; an index above `0xF`
raises `KeyIndexOutOfRange` and nothing else changes. -/
def Obligations.KeySkips : Prop :=
  ∀ (x : Reg) (s : State),
    (∀ (k : Nat) (h : k < 16), (s.readV x).toNat = k →
      (∃ t, exec (.skp x) s = .next t ∧ t.pc = (if s.key[k] = true then s.pc + 4 else s.pc + 2) ∧ Frame [] [.pc] s t) ∧
      (∃ t, exec (.sknp x) s = .next t ∧ t.pc = (if s.key[k] = true then s.pc + 2 else s.pc + 4) ∧ Frame [] [.pc] s t)) ∧
    (0xF < (s.readV x).toNat →
      exec (.skp x) s = .next { s with status := .halted .keyIndexOutOfRange (encode (.skp x)) s.pc } ∧
      exec (.sknp x) s = .next { s with status := .halted .keyIndexOutOfRange (encode (.sknp x)) s.pc })

/-- `Fx0A` (rule R193, decision D12): with no key down nothing changes at all; with some key down `Vx` takes the index of one that is down,
the only one when there is only one. Which of several is the model's free value `Config.keyPick` (log entry 4), and nothing rests on it. -/
def Obligations.WaitForKeyTakesAPressedKey : Prop :=
  ∀ (x : Reg) (s : State),
    ((∀ k < 16, s.keyDown k = false) → exec (.ldVxK x) s = .next s) ∧
    ((∃ k < 16, s.keyDown k = true) → ∃ t k, exec (.ldVxK x) s = .next t ∧ k < 16 ∧ s.keyDown k = true ∧
      (t.readV x).toNat = k ∧ t.pc = s.pc + 2 ∧ Frame [x] [.pc, .draws] s t)

/-- `Fx07`, `Fx15` and `Fx18` (rules R194, R195, R196): `DT` to `Vx`, `Vx` to `DT`, `Vx` to `ST`. -/
def Obligations.TimerTransfers : Prop :=
  ∀ (x : Reg) (s : State),
    (∃ t, exec (.ldVxDT x) s = .next t ∧ t.readV x = s.dt ∧ t.pc = s.pc + 2 ∧ Frame [x] [.pc] s t) ∧
    (∃ t, exec (.ldDTVx x) s = .next t ∧ t.dt = s.readV x ∧ t.pc = s.pc + 2 ∧ Frame [] [.pc, .dt] s t) ∧
    (∃ t, exec (.ldSTVx x) s = .next t ∧ t.st = s.readV x ∧ t.pc = s.pc + 2 ∧ Frame [] [.pc, .st] s t)

/-! ## Interleavings (rule R229) -/

/-- The machine under the free pacing makes the moves of the free schedule, one whole transition after another: since nothing is known of the
schedule, what holds of it holds of every infinite interleaving of steps, ticks and host operations (rules R227, R229; log entry 16). -/
def Obligations.FreePacingFollowsTheSchedule : Prop :=
  ∀ (n k : Nat) (s : State), s.env = [] → s.pacing = .free k →
    SameOutcome (runSteps n s) (runOn (fun j => Config.schedule (k + j)) n s)

/-- The deterministic instance of rule R229 ("one tick after every so many steps"): with `left` steps to go, those steps are made and then comes
a tick, with `n` steps to go to the next, and so on for ever (the field is the model's, log entry 16). -/
def Obligations.TickComesAfterEveryNSteps : Prop :=
  ∀ (n left : Nat) (s : State), s.env = [] → s.pacing = .every n left →
    ∃ t, runSteps left s = .next t ∧ t.env = [] ∧ t.pacing = .every n 0 ∧ step t = .next { t with pacing := .every n n }.tick

/-- Under the one assumption rule R229 grants, that steps and ticks keep coming, both timers of a running program that idles at a self-jump
reach zero, whatever keys are written and whatever is presented meanwhile, and it idles there still. -/
def Obligations.FairTicksRunTimersDown : Prop :=
  ∀ (σ : Nat → Move) (s : State), Fair σ → (∀ j, (σ j).keepsRunning = true) → s.isRunning → s.atSelfJump →
    ∃ n t, runOn σ n s = .next t ∧ t.dt = 0 ∧ t.st = 0 ∧ t.pc = s.pc ∧ t.isRunning
end

