-- ==== Sys2Proof/Laws/Encoding.lean ====
section
/-! SUPPORT. Fields and formats as arithmetic on the word's value, so that facts about encodings are linear arithmetic, and the
small lemmas of the decoder's parts. -/

namespace Sys2Proof

/-! ## Fields -/

theorem fieldCat_val (w : Word) : (fieldCat w).val = w.toNat / 4096 := by
  have := w.isLt
  simp [fieldCat, Nat.shiftRight_eq_div_pow]
  omega

theorem fieldX_val (w : Word) : (fieldX w).val = w.toNat / 256 % 16 := by
  simp [fieldX, Nat.shiftRight_eq_div_pow]

theorem fieldY_val (w : Word) : (fieldY w).val = w.toNat / 16 % 16 := by
  simp [fieldY, Nat.shiftRight_eq_div_pow]

theorem fieldN_val (w : Word) : (fieldN w).val = w.toNat % 16 := by
  simp [fieldN]

theorem fieldNN_toNat (w : Word) : (fieldNN w).toNat = w.toNat % 256 := by
  simp [fieldNN]

theorem fieldNNN_toNat (w : Word) : (fieldNNN w).toNat = w.toNat % 4096 := by
  simp [fieldNNN]

/-! ## Formats -/

theorem formatA_toNat (cat : BitVec 4) (nnn : BitVec 12) :
    (formatA cat nnn).toNat = cat.toNat * 4096 + nnn.toNat := by
  have h : (formatA cat nnn).toNat = cat.toNat <<< 12 ||| nnn.toNat := BitVec.toNat_append ..
  rw [h, ← Nat.shiftLeft_add_eq_or_of_lt nnn.isLt, Nat.shiftLeft_eq]

theorem nibblePair_toNat (a : BitVec 4) (n : Nibble) :
    (a ++ BitVec.ofFin (w := 4) n).toNat = a.toNat * 16 + n.val := by
  rw [BitVec.toNat_append, ← Nat.shiftLeft_add_eq_or_of_lt (BitVec.isLt _), Nat.shiftLeft_eq]
  rfl

theorem formatXB_toNat (cat : BitVec 4) (x : Reg) (nn : Byte) :
    (formatXB cat x nn).toNat = cat.toNat * 4096 + x.val * 256 + nn.toNat := by
  have h : (formatXB cat x nn).toNat = (cat ++ BitVec.ofFin (w := 4) x).toNat <<< 8 ||| nn.toNat := BitVec.toNat_append ..
  rw [h, ← Nat.shiftLeft_add_eq_or_of_lt nn.isLt, Nat.shiftLeft_eq, nibblePair_toNat]
  omega

theorem formatXYN_toNat (cat : BitVec 4) (x y : Reg) (n : Nibble) :
    (formatXYN cat x y n).toNat = cat.toNat * 4096 + x.val * 256 + y.val * 16 + n.val := by
  have h : (formatXYN cat x y n).toNat = (cat ++ BitVec.ofFin (w := 4) x).toNat <<< 8 |||
      (BitVec.ofFin (w := 4) y ++ BitVec.ofFin (w := 4) n).toNat := BitVec.toNat_append ..
  rw [h, ← Nat.shiftLeft_add_eq_or_of_lt (BitVec.isLt _), Nat.shiftLeft_eq, nibblePair_toNat, nibblePair_toNat]
  have : (BitVec.ofFin (w := 4) y).toNat = y.val := rfl
  omega

/-! ## Fields of formats -/

section
variable (cat : BitVec 4) (x y : Reg) (n : Nibble) (nn : Byte) (nnn : BitVec 12)

@[simp] theorem fieldCat_formatA : fieldCat (formatA cat nnn) = cat.toFin := by
  have := nnn.isLt
  ext; rw [fieldCat_val, formatA_toNat]; simp; omega

@[simp] theorem fieldNNN_formatA : fieldNNN (formatA cat nnn) = nnn := by
  have := nnn.isLt
  apply BitVec.eq_of_toNat_eq; rw [fieldNNN_toNat, formatA_toNat]; omega

@[simp] theorem fieldCat_formatXB : fieldCat (formatXB cat x nn) = cat.toFin := by
  have := nn.isLt
  ext; rw [fieldCat_val, formatXB_toNat]; simp; omega

@[simp] theorem fieldX_formatXB : fieldX (formatXB cat x nn) = x := by
  have := nn.isLt
  ext; rw [fieldX_val, formatXB_toNat]; omega

@[simp] theorem fieldNN_formatXB : fieldNN (formatXB cat x nn) = nn := by
  have := nn.isLt
  apply BitVec.eq_of_toNat_eq; rw [fieldNN_toNat, formatXB_toNat]; omega

@[simp] theorem fieldCat_formatXYN : fieldCat (formatXYN cat x y n) = cat.toFin := by
  ext; rw [fieldCat_val, formatXYN_toNat]; simp; omega

@[simp] theorem fieldX_formatXYN : fieldX (formatXYN cat x y n) = x := by
  ext; rw [fieldX_val, formatXYN_toNat]; omega

@[simp] theorem fieldY_formatXYN : fieldY (formatXYN cat x y n) = y := by
  ext; rw [fieldY_val, formatXYN_toNat]; omega

@[simp] theorem fieldN_formatXYN : fieldN (formatXYN cat x y n) = n := by
  ext; rw [fieldN_val, formatXYN_toNat]; omega

end

/-! ## Formats of fields -/

theorem formatA_fields {w : Word} {cat : BitVec 4} (h : fieldCat w = cat.toFin) : formatA cat (fieldNNN w) = w := by
  have hc := congrArg Fin.val h
  rw [fieldCat_val] at hc
  apply BitVec.eq_of_toNat_eq; rw [formatA_toNat, fieldNNN_toNat]
  simp at hc; omega

theorem formatXB_fields {w : Word} {cat : BitVec 4} (h : fieldCat w = cat.toFin) :
    formatXB cat (fieldX w) (fieldNN w) = w := by
  have hc := congrArg Fin.val h
  rw [fieldCat_val] at hc
  apply BitVec.eq_of_toNat_eq; rw [formatXB_toNat, fieldX_val, fieldNN_toNat]
  simp at hc; omega

theorem formatXYN_fields {w : Word} {cat : BitVec 4} (h : fieldCat w = cat.toFin) :
    formatXYN cat (fieldX w) (fieldY w) (fieldN w) = w := by
  have hc := congrArg Fin.val h
  rw [fieldCat_val] at hc
  apply BitVec.eq_of_toNat_eq; rw [formatXYN_toNat, fieldX_val, fieldY_val, fieldN_val]
  simp at hc; omega

/-! ## Bytes of a word -/

@[simp] theorem wordOfBytes_toNat (hi lo : Byte) : (wordOfBytes hi lo).toNat = hi.toNat * 256 + lo.toNat := by
  have h : (wordOfBytes hi lo).toNat = hi.toNat <<< 8 ||| lo.toNat := BitVec.toNat_append ..
  rw [h, ← Nat.shiftLeft_add_eq_or_of_lt lo.isLt, Nat.shiftLeft_eq]

theorem highByte_toNat (w : Word) : (highByte w).toNat = w.toNat / 256 := by
  have := w.isLt
  simp [highByte, Nat.shiftRight_eq_div_pow]; omega

theorem lowByte_toNat (w : Word) : (lowByte w).toNat = w.toNat % 256 := by
  simp [lowByte]

@[simp] theorem wordOfBytes_of_word (w : Word) : wordOfBytes (highByte w) (lowByte w) = w := by
  apply BitVec.eq_of_toNat_eq; rw [wordOfBytes_toNat, highByte_toNat, lowByte_toNat]; omega

/-- Decoding bytes is decoding the word they make, high byte first. -/
theorem decodeBytes_cons (hi lo : Byte) (rest : List Byte) :
    decodeBytes (hi :: lo :: rest) = (decodeWord (wordOfBytes hi lo)).map (fun i => (i, rest)) := by
  simp only [decodeBytes]
  cases decodeWord (wordOfBytes hi lo) <;> rfl

theorem decodeTableWord_eq (nbits w : Nat) :
    decodeTableWord nbits w = (decodeWord (tableWord nbits w)).toOption := by
  simp only [decodeTableWord, decodeBytes_cons, wordOfBytes_of_word]
  cases decodeWord (tableWord nbits w) <;> rfl

/-! ## The decoder, category by category -/

/-- A nibble is one of its sixteen values. -/
theorem nibble_cases (c : Fin 16) :
    c = 0x0 ∨ c = 0x1 ∨ c = 0x2 ∨ c = 0x3 ∨ c = 0x4 ∨ c = 0x5 ∨ c = 0x6 ∨ c = 0x7 ∨
    c = 0x8 ∨ c = 0x9 ∨ c = 0xA ∨ c = 0xB ∨ c = 0xC ∨ c = 0xD ∨ c = 0xE ∨ c = 0xF := by
  decide +revert

section
variable {w : Word}

theorem decodeWord_cat0 (h : fieldCat w = 0x0) : decodeWord w = decodeCat0 w := by
  simp only [decodeWord, h]

theorem decodeWord_cat1 (h : fieldCat w = 0x1) : decodeWord w = .ok (.jp (fieldNNN w)) := by
  simp only [decodeWord, h]

theorem decodeWord_cat2 (h : fieldCat w = 0x2) : decodeWord w = .ok (.call (fieldNNN w)) := by
  simp only [decodeWord, h]

theorem decodeWord_cat3 (h : fieldCat w = 0x3) : decodeWord w = .ok (.seImm (fieldX w) (fieldNN w)) := by
  simp only [decodeWord, h]

theorem decodeWord_cat4 (h : fieldCat w = 0x4) : decodeWord w = .ok (.sneImm (fieldX w) (fieldNN w)) := by
  simp only [decodeWord, h]

theorem decodeWord_cat5 (h : fieldCat w = 0x5) : decodeWord w = .ok (.seReg (fieldX w) (fieldY w) (fieldN w)) := by
  simp only [decodeWord, h]

theorem decodeWord_cat6 (h : fieldCat w = 0x6) : decodeWord w = .ok (.ldImm (fieldX w) (fieldNN w)) := by
  simp only [decodeWord, h]

theorem decodeWord_cat7 (h : fieldCat w = 0x7) : decodeWord w = .ok (.addImm (fieldX w) (fieldNN w)) := by
  simp only [decodeWord, h]

theorem decodeWord_cat8 (h : fieldCat w = 0x8) : decodeWord w = decodeCat8 w := by
  simp only [decodeWord, h]

theorem decodeWord_cat9 (h : fieldCat w = 0x9) : decodeWord w = .ok (.sneReg (fieldX w) (fieldY w) (fieldN w)) := by
  simp only [decodeWord, h]

theorem decodeWord_catA (h : fieldCat w = 0xA) : decodeWord w = .ok (.ldI (fieldNNN w)) := by
  simp only [decodeWord, h]

theorem decodeWord_catB (h : fieldCat w = 0xB) : decodeWord w = .ok (.jpV0 (fieldNNN w)) := by
  simp only [decodeWord, h]

theorem decodeWord_catC (h : fieldCat w = 0xC) : decodeWord w = .ok (.rnd (fieldX w) (fieldNN w)) := by
  simp only [decodeWord, h]

theorem decodeWord_catD (h : fieldCat w = 0xD) : decodeWord w = .ok (.drw (fieldX w) (fieldY w) (fieldN w)) := by
  simp only [decodeWord, h]

theorem decodeWord_catE (h : fieldCat w = 0xE) : decodeWord w = decodeCatE w := by
  simp only [decodeWord, h]

theorem decodeWord_catF (h : fieldCat w = 0xF) : decodeWord w = decodeCatF w := by
  simp only [decodeWord, h]

/-- The selectors of category 8 (rule R98). -/
theorem decodeCat8_cases (w : Word) :
    (fieldN w = 0x0 ∧ decodeCat8 w = .ok (.ldReg (fieldX w) (fieldY w))) ∨
    (fieldN w = 0x1 ∧ decodeCat8 w = .ok (.orReg (fieldX w) (fieldY w))) ∨
    (fieldN w = 0x2 ∧ decodeCat8 w = .ok (.andReg (fieldX w) (fieldY w))) ∨
    (fieldN w = 0x3 ∧ decodeCat8 w = .ok (.xorReg (fieldX w) (fieldY w))) ∨
    (fieldN w = 0x4 ∧ decodeCat8 w = .ok (.addReg (fieldX w) (fieldY w))) ∨
    (fieldN w = 0x5 ∧ decodeCat8 w = .ok (.subReg (fieldX w) (fieldY w))) ∨
    (fieldN w = 0x6 ∧ decodeCat8 w = .ok (.shr (fieldX w) (fieldY w))) ∨
    (fieldN w = 0x7 ∧ decodeCat8 w = .ok (.subn (fieldX w) (fieldY w))) ∨
    (fieldN w = 0xE ∧ decodeCat8 w = .ok (.shl (fieldX w) (fieldY w))) ∨
    (fieldN w ≠ 0x0 ∧ fieldN w ≠ 0x1 ∧ fieldN w ≠ 0x2 ∧ fieldN w ≠ 0x3 ∧ fieldN w ≠ 0x4 ∧ fieldN w ≠ 0x5 ∧ fieldN w ≠ 0x6 ∧ fieldN w ≠ 0x7 ∧ fieldN w ≠ 0xE ∧
      decodeCat8 w = .error .category8) := by
  unfold decodeCat8
  by_cases h00 : fieldN w = 0x0
  · exact .inl ⟨h00, by rw [if_pos h00]⟩
  by_cases h01 : fieldN w = 0x1
  · exact .inr (.inl ⟨h01, by rw [if_neg h00, if_pos h01]⟩)
  by_cases h02 : fieldN w = 0x2
  · exact .inr (.inr (.inl ⟨h02, by rw [if_neg h00, if_neg h01, if_pos h02]⟩))
  by_cases h03 : fieldN w = 0x3
  · exact .inr (.inr (.inr (.inl ⟨h03, by rw [if_neg h00, if_neg h01, if_neg h02, if_pos h03]⟩)))
  by_cases h04 : fieldN w = 0x4
  · exact .inr (.inr (.inr (.inr (.inl ⟨h04, by rw [if_neg h00, if_neg h01, if_neg h02, if_neg h03, if_pos h04]⟩))))
  by_cases h05 : fieldN w = 0x5
  · exact .inr (.inr (.inr (.inr (.inr (.inl ⟨h05, by rw [if_neg h00, if_neg h01, if_neg h02, if_neg h03, if_neg h04, if_pos h05]⟩)))))
  by_cases h06 : fieldN w = 0x6
  · exact .inr (.inr (.inr (.inr (.inr (.inr (.inl ⟨h06, by rw [if_neg h00, if_neg h01, if_neg h02, if_neg h03, if_neg h04, if_neg h05, if_pos h06]⟩))))))
  by_cases h07 : fieldN w = 0x7
  · exact .inr (.inr (.inr (.inr (.inr (.inr (.inr (.inl ⟨h07, by rw [if_neg h00, if_neg h01, if_neg h02, if_neg h03, if_neg h04, if_neg h05, if_neg h06, if_pos h07]⟩)))))))
  by_cases h0E : fieldN w = 0xE
  · exact .inr (.inr (.inr (.inr (.inr (.inr (.inr (.inr (.inl ⟨h0E, by rw [if_neg h00, if_neg h01, if_neg h02, if_neg h03, if_neg h04, if_neg h05, if_neg h06, if_neg h07, if_pos h0E]⟩))))))))
  exact .inr (.inr (.inr (.inr (.inr (.inr (.inr (.inr (.inr ⟨h00, h01, h02, h03, h04, h05, h06, h07, h0E, by rw [if_neg h00, if_neg h01, if_neg h02, if_neg h03, if_neg h04, if_neg h05, if_neg h06, if_neg h07, if_neg h0E]⟩))))))))

/-- The selectors of category E (rule R99). -/
theorem decodeCatE_cases (w : Word) :
    (fieldNN w = 0x9E ∧ decodeCatE w = .ok (.skp (fieldX w))) ∨
    (fieldNN w = 0xA1 ∧ decodeCatE w = .ok (.sknp (fieldX w))) ∨
    (fieldNN w ≠ 0x9E ∧ fieldNN w ≠ 0xA1 ∧
      decodeCatE w = .error .categoryE) := by
  unfold decodeCatE
  by_cases h9E : fieldNN w = 0x9E
  · exact .inl ⟨h9E, by rw [if_pos h9E]⟩
  by_cases hA1 : fieldNN w = 0xA1
  · exact .inr (.inl ⟨hA1, by rw [if_neg h9E, if_pos hA1]⟩)
  exact .inr (.inr ⟨h9E, hA1, by rw [if_neg h9E, if_neg hA1]⟩)

/-- The selectors of category F (rule R99). -/
theorem decodeCatF_cases (w : Word) :
    (fieldNN w = 0x07 ∧ decodeCatF w = .ok (.ldVxDT (fieldX w))) ∨
    (fieldNN w = 0x0A ∧ decodeCatF w = .ok (.ldVxK (fieldX w))) ∨
    (fieldNN w = 0x15 ∧ decodeCatF w = .ok (.ldDTVx (fieldX w))) ∨
    (fieldNN w = 0x18 ∧ decodeCatF w = .ok (.ldSTVx (fieldX w))) ∨
    (fieldNN w = 0x1E ∧ decodeCatF w = .ok (.addI (fieldX w))) ∨
    (fieldNN w = 0x29 ∧ decodeCatF w = .ok (.ldF (fieldX w))) ∨
    (fieldNN w = 0x33 ∧ decodeCatF w = .ok (.ldB (fieldX w))) ∨
    (fieldNN w = 0x55 ∧ decodeCatF w = .ok (.storeRegs (fieldX w))) ∨
    (fieldNN w = 0x65 ∧ decodeCatF w = .ok (.loadRegs (fieldX w))) ∨
    (fieldNN w ≠ 0x07 ∧ fieldNN w ≠ 0x0A ∧ fieldNN w ≠ 0x15 ∧ fieldNN w ≠ 0x18 ∧ fieldNN w ≠ 0x1E ∧ fieldNN w ≠ 0x29 ∧ fieldNN w ≠ 0x33 ∧ fieldNN w ≠ 0x55 ∧ fieldNN w ≠ 0x65 ∧
      decodeCatF w = .error .categoryF) := by
  unfold decodeCatF
  by_cases h07 : fieldNN w = 0x07
  · exact .inl ⟨h07, by rw [if_pos h07]⟩
  by_cases h0A : fieldNN w = 0x0A
  · exact .inr (.inl ⟨h0A, by rw [if_neg h07, if_pos h0A]⟩)
  by_cases h15 : fieldNN w = 0x15
  · exact .inr (.inr (.inl ⟨h15, by rw [if_neg h07, if_neg h0A, if_pos h15]⟩))
  by_cases h18 : fieldNN w = 0x18
  · exact .inr (.inr (.inr (.inl ⟨h18, by rw [if_neg h07, if_neg h0A, if_neg h15, if_pos h18]⟩)))
  by_cases h1E : fieldNN w = 0x1E
  · exact .inr (.inr (.inr (.inr (.inl ⟨h1E, by rw [if_neg h07, if_neg h0A, if_neg h15, if_neg h18, if_pos h1E]⟩))))
  by_cases h29 : fieldNN w = 0x29
  · exact .inr (.inr (.inr (.inr (.inr (.inl ⟨h29, by rw [if_neg h07, if_neg h0A, if_neg h15, if_neg h18, if_neg h1E, if_pos h29]⟩)))))
  by_cases h33 : fieldNN w = 0x33
  · exact .inr (.inr (.inr (.inr (.inr (.inr (.inl ⟨h33, by rw [if_neg h07, if_neg h0A, if_neg h15, if_neg h18, if_neg h1E, if_neg h29, if_pos h33]⟩))))))
  by_cases h55 : fieldNN w = 0x55
  · exact .inr (.inr (.inr (.inr (.inr (.inr (.inr (.inl ⟨h55, by rw [if_neg h07, if_neg h0A, if_neg h15, if_neg h18, if_neg h1E, if_neg h29, if_neg h33, if_pos h55]⟩)))))))
  by_cases h65 : fieldNN w = 0x65
  · exact .inr (.inr (.inr (.inr (.inr (.inr (.inr (.inr (.inl ⟨h65, by rw [if_neg h07, if_neg h0A, if_neg h15, if_neg h18, if_neg h1E, if_neg h29, if_neg h33, if_neg h55, if_pos h65]⟩))))))))
  exact .inr (.inr (.inr (.inr (.inr (.inr (.inr (.inr (.inr ⟨h07, h0A, h15, h18, h1E, h29, h33, h55, h65, by rw [if_neg h07, if_neg h0A, if_neg h15, if_neg h18, if_neg h1E, if_neg h29, if_neg h33, if_neg h55, if_neg h65]⟩))))))))

/-- The words of category 0 (rule R97). -/
theorem decodeCat0_cases (w : Word) :
    (w = 0x00E0 ∧ decodeCat0 w = .ok .cls) ∨ (w = 0x00EE ∧ decodeCat0 w = .ok .ret) ∨
    (w ≠ 0x00E0 ∧ w ≠ 0x00EE ∧ decodeCat0 w = .error .category0) := by
  unfold decodeCat0
  by_cases h0 : w = 0x00E0
  · exact .inl ⟨h0, by rw [if_pos h0]⟩
  by_cases h1 : w = 0x00EE
  · exact .inr (.inl ⟨h1, by rw [if_neg h0, if_pos h1]⟩)
  exact .inr (.inr ⟨h0, h1, by rw [if_neg h0, if_neg h1]⟩)

end

/-! ## Canonical forms -/

@[simp] theorem Instr.canonical_wellFormed (i : Instr) : i.canonical.wellFormed = true := by
  cases i <;> rfl

theorem Instr.canonical_of_wellFormed {i : Instr} (h : i.wellFormed = true) : i.canonical = i := by
  cases i <;> simp_all [Instr.wellFormed, Instr.nibbleCanonical, Instr.shiftCanonical, Instr.canonical]

/-- Making an instruction canonical changes no field that its operation uses. -/
theorem Instr.canonical_rowNumber (i : Instr) : i.canonical.rowNumber = i.rowNumber := by
  cases i <;> rfl

end Sys2Proof
end

