-- ==== Sys2Proof/Laws/FrameBuffer.lean ====
section
/-! SUPPORT. The framebuffer: flipping a cell changes that cell alone, cells determine the framebuffer, and drawing distinct cells one
after another flips exactly those and notes a collision exactly when one of them was lit at the start. -/

namespace Sys2Proof.Machine

/-! ## Cells -/

theorem FrameBuffer.lit_eq (fb : FrameBuffer) {c : Nat} (h : c < 2048) :
    fb.lit c = (fb[c / 64]'(by omega)).getLsbD (c % 64) := by
  have h' : c / 64 < fb.toList.length := by simp; omega
  simp only [FrameBuffer.lit, List.getD_eq_getElem?_getD, List.getElem?_eq_getElem h', Option.getD_some, Vector.getElem_toList]

theorem FrameBuffer.lit_beyond (fb : FrameBuffer) {c : Nat} (h : 2048 ≤ c) : fb.lit c = false := by
  have h' : fb.toList.length ≤ c / 64 := by simp; omega
  simp [FrameBuffer.lit, List.getD_eq_getElem?_getD, List.getElem?_eq_none h']

@[simp] theorem FrameBuffer.lit_clear (c : Nat) : FrameBuffer.clear.lit c = false := by
  by_cases h : c < 2048
  · rw [FrameBuffer.lit_eq _ h]; simp [FrameBuffer.clear]
  · exact FrameBuffer.lit_beyond _ (by omega)

/-- Framebuffers whose cells agree are the same. -/
theorem FrameBuffer.ext_lit {a b : FrameBuffer} (h : ∀ c < 2048, a.lit c = b.lit c) : a = b := by
  refine Vector.ext fun k hk => BitVec.eq_of_getLsbD_eq fun j hj => ?_
  have hc : k * 64 + j < 2048 := by omega
  have := h _ hc
  rw [FrameBuffer.lit_eq _ hc, FrameBuffer.lit_eq _ hc] at this
  have e1 : (k * 64 + j) / 64 = k := by omega
  have e2 : (k * 64 + j) % 64 = j := by omega
  simpa only [e1, e2] using this

/-- Flipping a cell changes that cell alone. -/
theorem FrameBuffer.lit_flip (fb : FrameBuffer) {c : Nat} (hc : c < 2048) (d : Nat) :
    (fb.flip c).lit d = (fb.lit d ^^ decide (d = c)) := by
  by_cases hd : d < 2048
  · have hrow : fb.toList.getD (c / 64) 0 = fb[c / 64]'(by omega) := by
      have h' : c / 64 < fb.toList.length := by simp; omega
      simp only [List.getD_eq_getElem?_getD, List.getElem?_eq_getElem h', Option.getD_some, Vector.getElem_toList]
    rw [FrameBuffer.lit_eq _ hd, FrameBuffer.lit_eq _ hd]
    simp only [FrameBuffer.flip, hrow, Vector.getElem_setIfInBounds]
    by_cases hr : c / 64 = d / 64
    · simp only [hr, if_true, BitVec.getLsbD_xor, BitVec.getLsbD_twoPow]
      congr 1
      have : c % 64 < 64 := by omega
      simp only [this, decide_true, Bool.true_and]
      exact decide_eq_decide.2 (by omega)
    · have hne : d ≠ c := by rintro rfl; exact hr rfl
      simp [hr, hne]
  · rw [FrameBuffer.lit_beyond _ (by omega), FrameBuffer.lit_beyond _ (by omega)]
    have : d ≠ c := by omega
    simp [this]

/-! ## Plotting -/

theorem plotCells_foldl (cells : List Nat) (fb : FrameBuffer) (hit : Bool) (hb : ∀ c ∈ cells, c < 2048) (hn : cells.Nodup) :
    (∀ d, (cells.foldl plotCell (fb, hit)).1.lit d = (fb.lit d ^^ decide (d ∈ cells))) ∧
    (cells.foldl plotCell (fb, hit)).2 = (hit || cells.any fb.lit) := by
  induction cells generalizing fb hit with
  | nil => simp
  | cons c cells ih =>
    have hc := hb c (List.mem_cons_self ..)
    obtain ⟨hnot, hn⟩ := List.nodup_cons.1 hn
    obtain ⟨h1, h2⟩ := ih (fb.flip c) (hit || fb.lit c) (fun d hd => hb d (List.mem_cons_of_mem _ hd)) hn
    have hfold : (c :: cells).foldl plotCell (fb, hit) = cells.foldl plotCell (fb.flip c, hit || fb.lit c) := rfl
    rw [hfold]
    refine ⟨fun d => ?_, ?_⟩
    · rw [h1, FrameBuffer.lit_flip fb hc]
      by_cases hd : d = c
      · subst hd; simp [hnot]
      · simp [hd]
    · rw [h2, List.any_cons, Bool.or_assoc]
      have hany : cells.any (fb.flip c).lit = cells.any fb.lit := by
        rw [Bool.eq_iff_iff, List.any_eq_true, List.any_eq_true]
        refine exists_congr fun d => and_congr_right fun hd => ?_
        have hne : d ≠ c := by rintro rfl; exact hnot hd
        rw [FrameBuffer.lit_flip fb hc, decide_eq_false hne, Bool.xor_false]
      rw [hany]

/-- Plotting distinct cells of the screen flips exactly those. -/
theorem plotCells_lit {cells : List Nat} (fb : FrameBuffer) (hb : ∀ c ∈ cells, c < 2048) (hn : cells.Nodup) (d : Nat) :
    (plotCells fb cells).1.lit d = (fb.lit d ^^ decide (d ∈ cells)) :=
  (plotCells_foldl cells fb false hb hn).1 d

/-- Plotting distinct cells notes a collision exactly when one of them was lit. -/
theorem plotCells_hit {cells : List Nat} (fb : FrameBuffer) (hb : ∀ c ∈ cells, c < 2048) (hn : cells.Nodup) :
    (plotCells fb cells).2 = cells.any fb.lit := by
  rw [plotCells, (plotCells_foldl cells fb false hb hn).2, Bool.false_or]

/-! ## The cells of a sprite -/

theorem spriteCell_lt (px py r col : Nat) : spriteCell px py r col < 2048 := by unfold spriteCell; omega

/-- Two places of a sprite of at most 32 rows have the same cell only if they are the same place (rule R182, corner case 5). -/
theorem spriteCell_inj {px py r r' col col' : Nat} (hr : r < 32) (hr' : r' < 32) (hc : col < 8) (hc' : col' < 8)
    (h : spriteCell px py r col = spriteCell px py r' col') : r = r' ∧ col = col' := by
  unfold spriteCell at h; omega

theorem mem_spriteRow {b : Byte} {px py r c : Nat} :
    c ∈ spriteRow b px py r ↔ ∃ col < 8, b.getLsbD (7 - col) = true ∧ c = spriteCell px py r col := by
  simp only [spriteRow, List.mem_map, List.mem_filter, List.mem_range, and_assoc, eq_comm]

theorem mem_spriteCells {m : Memory} {base px py n c : Nat} :
    c ∈ spriteCells m base px py n ↔
      ∃ r < n, ∃ col < 8, (m.read (base + r)).getLsbD (7 - col) = true ∧ c = spriteCell px py r col := by
  simp only [spriteCells, List.mem_flatMap, List.mem_range, mem_spriteRow]

theorem spriteCells_lt {m : Memory} {base px py n c : Nat} (h : c ∈ spriteCells m base px py n) : c < 2048 := by
  obtain ⟨r, -, col, -, -, rfl⟩ := mem_spriteCells.1 h
  exact spriteCell_lt ..

/-- The cells of a sprite are distinct, so no draw collides with itself (rule R182, corner case 5). -/
theorem spriteCells_nodup (m : Memory) (base px py : Nat) {n : Nat} (hn : n ≤ 32) :
    (spriteCells m base px py n).Nodup := by
  refine List.nodup_flatMap.2 ⟨fun r hr => ?_, ?_⟩
  · have hr := List.mem_range.1 hr
    refine List.Nodup.map_on (fun a ha b hb h => ?_) (List.nodup_range.filter _)
    have ha := List.mem_range.1 (List.mem_filter.1 ha).1
    have hb := List.mem_range.1 (List.mem_filter.1 hb).1
    exact (spriteCell_inj (by omega) (by omega) ha hb h).2
  · refine List.Pairwise.imp_of_mem ?_ List.nodup_range
    intro r r' hr hr' hne c hc hc'
    have hr := List.mem_range.1 hr
    have hr' := List.mem_range.1 hr'
    obtain ⟨col, hcol, -, h⟩ := mem_spriteRow.1 hc
    obtain ⟨col', hcol', -, h'⟩ := mem_spriteRow.1 hc'
    exact hne (spriteCell_inj (by omega) (by omega) hcol hcol' (h ▸ h')).1

/-- Plotting the same distinct cells twice restores the framebuffer (XOR is its own inverse). -/
theorem plotCells_twice {cells : List Nat} (fb : FrameBuffer) (hb : ∀ c ∈ cells, c < 2048) (hn : cells.Nodup) :
    (plotCells (plotCells fb cells).1 cells).1 = fb := by
  refine FrameBuffer.ext_lit fun c _ => ?_
  rw [plotCells_lit _ hb hn, plotCells_lit _ hb hn]
  cases fb.lit c <;> cases decide (c ∈ cells) <;> rfl

end Sys2Proof.Machine
end

