-- ==== Sys2Proof/Laws/Memory.lean ====
section
/-! SUPPORT. Memory: a read after a write gives the value written, a write leaves every other address alone, and every operation keeps the
canonical form. -/

namespace Sys2Proof.Machine

/-! ## The list of cells -/

theorem Memory.find_put (a k : Nat) (b : Byte) (l : List Host.Cell) :
    Memory.find k (Memory.put a b l) = if k = a then some b else Memory.find k l := by
  induction l with
  | nil => simp only [Memory.put, Memory.find, eq_comm]
  | cons c l ih =>
    unfold Memory.put
    split
    case isTrue h => simp only [Memory.find, eq_comm]
    case isFalse h =>
      split
      case isTrue hc => simp only [Memory.find, hc, eq_comm]; split <;> rfl
      case isFalse hc =>
        simp only [Memory.find, ih]
        by_cases h1 : c.1 = k
        · rw [if_pos h1, if_neg (by omega), if_pos h1]
        · rw [if_neg h1, if_neg h1]

theorem Memory.find_drop (a k : Nat) (l : List Host.Cell) :
    Memory.find k (Memory.drop a l) = if k = a then none else Memory.find k l := by
  induction l with
  | nil => simp [Memory.drop, Memory.find]
  | cons c l ih =>
    unfold Memory.drop at ih ⊢
    by_cases h : c.1 = a
    · rw [List.filter_cons_of_neg (by simp [h]), ih]
      simp only [Memory.find, h]
      by_cases hk : k = a
      · rw [if_pos hk, if_pos hk]
      · rw [if_neg hk, if_neg hk, if_neg (Ne.symm hk)]
    · rw [List.filter_cons_of_pos (by simp [h])]
      simp only [Memory.find, ih]
      by_cases h1 : c.1 = k
      · rw [if_pos h1, if_neg (by omega), if_pos h1]
      · rw [if_neg h1, if_neg h1]

theorem Memory.mem_put {a : Nat} {b : Byte} {l : List Host.Cell} {c : Host.Cell} (h : c ∈ Memory.put a b l) :
    c = (a, b) ∨ c ∈ l := by
  induction l with
  | nil => exact .inl (List.mem_singleton.1 h)
  | cons d l ih =>
    unfold Memory.put at h
    split at h
    · exact List.mem_cons.1 h
    · split at h
      · exact (List.mem_cons.1 h).imp id (List.mem_cons_of_mem _)
      · rcases List.mem_cons.1 h with h | h
        · exact .inr (h ▸ List.mem_cons_self ..)
        · exact (ih h).imp id (List.mem_cons_of_mem _)

theorem Memory.put_pairwise (a : Nat) (b : Byte) {l : List Host.Cell} (h : l.Pairwise (fun c d => c.1 < d.1)) :
    (Memory.put a b l).Pairwise (fun c d => c.1 < d.1) := by
  induction l with
  | nil => exact List.pairwise_singleton ..
  | cons c l ih =>
    obtain ⟨hl, hp⟩ := List.pairwise_cons.1 h
    unfold Memory.put
    split
    case isTrue hlt =>
      refine List.pairwise_cons.2 ⟨fun d hd => ?_, h⟩
      rcases List.mem_cons.1 hd with rfl | hd
      · exact hlt
      · exact Nat.lt_trans hlt (hl d hd)
    case isFalse hlt =>
      split
      case isTrue heq => exact List.pairwise_cons.2 ⟨fun d hd => heq ▸ hl d hd, hp⟩
      case isFalse hne =>
        refine List.pairwise_cons.2 ⟨fun d hd => ?_, ih hp⟩
        rcases Memory.mem_put hd with rfl | h
        · show c.1 < a; omega
        · exact hl d h

/-! ## Reads and writes -/

@[simp] theorem Memory.write_font (m : Memory) (a : Nat) (b : Byte) : (m.write a b).font = m.font := rfl

@[simp] theorem Memory.writeBytes_font (m : Memory) (a : Nat) (bs : List Byte) : (m.writeBytes a bs).font = m.font := by
  induction bs generalizing m a with
  | nil => rfl
  | cons b bs ih => rw [Memory.writeBytes, ih]; rfl

/-- What an unlisted address reads as depends on the font parameter alone. -/
theorem Memory.unlisted_congr {m n : Memory} (h : m.font = n.font) (a : Nat) : m.unlisted a = n.unlisted a := by
  simp only [Memory.unlisted, h]

@[simp] theorem Memory.unlisted_write (m : Memory) (a k : Nat) (b : Byte) : (m.write a b).unlisted k = m.unlisted k := rfl

theorem Memory.read_nil (m : Memory) (h : m.cells = []) (a : Nat) : m.read a = m.unlisted a := by
  simp [Memory.read, h, Memory.find]

/-- Reading after a write. -/
theorem Memory.read_write (m : Memory) (a k : Nat) (b : Byte) :
    (m.write a b).read k = if k = a then b else m.read k := by
  simp only [Memory.read, Memory.unlisted_write]
  unfold Memory.write
  dsimp only
  split
  case isTrue hb =>
    rw [Memory.find_drop]
    split
    case isTrue hk => rw [hk, hb]; rfl
    case isFalse hk => rfl
  case isFalse hb =>
    rw [Memory.find_put]
    split <;> rfl

/-- The cells a write leaves are canonical apart from the bound on the address written. -/
theorem Memory.write_wf {m : Memory} (hm : m.wf) {a : Nat} (ha : a < 4096) (b : Byte) : (m.write a b).wf := by
  obtain ⟨hp, hc⟩ := hm
  unfold Memory.write
  split
  case isTrue hb => exact ⟨hp.filter _, fun c h => hc c (List.mem_filter.1 h).1⟩
  case isFalse hb =>
    refine ⟨Memory.put_pairwise a b hp, fun c h => ?_⟩
    rcases Memory.mem_put h with rfl | h
    · exact ⟨ha, hb⟩
    · exact hc c h

theorem Memory.writeBytes_wf {m : Memory} (hm : m.wf) {a : Nat} {bs : List Byte} (ha : a + bs.length ≤ 4096) :
    (m.writeBytes a bs).wf := by
  induction bs generalizing m a with
  | nil => exact hm
  | cons b bs ih =>
    simp only [List.length_cons] at ha
    exact ih (Memory.write_wf hm (by omega) b) (by omega)

/-- Reading after a run of bytes has been written: the bytes where they were written, and what was there before elsewhere. -/
theorem Memory.read_writeBytes (m : Memory) (a : Nat) (bs : List Byte) (k : Nat) :
    (m.writeBytes a bs).read k = if h : a ≤ k ∧ k < a + bs.length then bs[k - a]'(by omega) else m.read k := by
  induction bs generalizing m a with
  | nil => rw [dif_neg (by simp)]; rfl
  | cons b bs ih =>
    simp only [List.length_cons]
    rw [Memory.writeBytes, ih, Memory.read_write]
    by_cases h0 : k = a
    · subst h0
      rw [dif_neg (by omega), dif_pos (by omega)]; simp
    · by_cases h1 : a + 1 ≤ k ∧ k < a + 1 + bs.length
      · rw [dif_pos h1, dif_pos (by omega)]
        obtain ⟨j, rfl⟩ : ∃ j, k = a + 1 + j := ⟨k - (a + 1), by omega⟩
        have e1 : a + 1 + j - (a + 1) = j := by omega
        have e2 : a + 1 + j - a = j + 1 := by omega
        simp only [e1, e2, List.getElem_cons_succ]
      · rw [dif_neg h1, dif_neg (by omega), if_neg h0]

/-- A run of bytes changes no address outside it. -/
theorem Memory.read_writeBytes_outside (m : Memory) {a k : Nat} {bs : List Byte} (h : k < a ∨ a + bs.length ≤ k) :
    (m.writeBytes a bs).read k = m.read k := by
  rw [Memory.read_writeBytes, dif_neg (by omega)]

/-- The byte at a place of a run of bytes. -/
theorem Memory.read_writeBytes_inside (m : Memory) (a : Nat) {j : Nat} {bs : List Byte} (h : j < bs.length) :
    (m.writeBytes a bs).read (a + j) = bs[j] := by
  rw [Memory.read_writeBytes, dif_pos (by omega)]
  simp only [Nat.add_sub_cancel_left]

/-- The reset memory is canonical. -/
theorem Memory.empty_wf (font : Vector Byte 75) : (⟨font, []⟩ : Memory).wf := ⟨.nil, fun _ h => nomatch h⟩

theorem State.reset_mem_wf : State.reset.mem.wf := Memory.empty_wf _

/-- Storing an instruction word where the next step fetches keeps the canonical form. -/
theorem State.storeFetchWord_wf {s : State} (h : s.mem.wf) (w : Word) : (s.storeFetchWord w).mem.wf := by
  unfold State.storeFetchWord
  refine Memory.writeBytes_wf h ?_
  simp only [List.length_cons, List.length_nil]
  split
  · omega
  · decide

end Sys2Proof.Machine
end

