-- ==== Sys2Proof/Laws/State.lean ====
section
/-! SUPPORT. One lemma per field per update of the state, each true by definition, and what reading a register gives after an update.
No later proof unfolds a record update. -/

namespace Sys2Proof.Machine

variable (s : State)

/-! ### writeV -/

@[simp] theorem State.writeV_v (r : Reg) (b : Byte) : (s.writeV r b).v = s.v.set r.val b := rfl
@[simp] theorem State.writeV_i (r : Reg) (b : Byte) : (s.writeV r b).i = s.i := rfl
@[simp] theorem State.writeV_pc (r : Reg) (b : Byte) : (s.writeV r b).pc = s.pc := rfl
@[simp] theorem State.writeV_stack (r : Reg) (b : Byte) : (s.writeV r b).stack = s.stack := rfl
@[simp] theorem State.writeV_sp (r : Reg) (b : Byte) : (s.writeV r b).sp = s.sp := rfl
@[simp] theorem State.writeV_mem (r : Reg) (b : Byte) : (s.writeV r b).mem = s.mem := rfl
@[simp] theorem State.writeV_fb (r : Reg) (b : Byte) : (s.writeV r b).fb = s.fb := rfl
@[simp] theorem State.writeV_key (r : Reg) (b : Byte) : (s.writeV r b).key = s.key := rfl
@[simp] theorem State.writeV_dt (r : Reg) (b : Byte) : (s.writeV r b).dt = s.dt := rfl
@[simp] theorem State.writeV_st (r : Reg) (b : Byte) : (s.writeV r b).st = s.st := rfl
@[simp] theorem State.writeV_drawFlag (r : Reg) (b : Byte) : (s.writeV r b).drawFlag = s.drawFlag := rfl
@[simp] theorem State.writeV_status (r : Reg) (b : Byte) : (s.writeV r b).status = s.status := rfl
@[simp] theorem State.writeV_env (r : Reg) (b : Byte) : (s.writeV r b).env = s.env := rfl
@[simp] theorem State.writeV_pacing (r : Reg) (b : Byte) : (s.writeV r b).pacing = s.pacing := rfl
@[simp] theorem State.writeV_draws (r : Reg) (b : Byte) : (s.writeV r b).draws = s.draws := rfl

/-! ### writeFlag -/

@[simp] theorem State.writeFlag_v (b : Bool) : (s.writeFlag b).v = s.v.set VF.val (flagByte b) := rfl
@[simp] theorem State.writeFlag_i (b : Bool) : (s.writeFlag b).i = s.i := rfl
@[simp] theorem State.writeFlag_pc (b : Bool) : (s.writeFlag b).pc = s.pc := rfl
@[simp] theorem State.writeFlag_stack (b : Bool) : (s.writeFlag b).stack = s.stack := rfl
@[simp] theorem State.writeFlag_sp (b : Bool) : (s.writeFlag b).sp = s.sp := rfl
@[simp] theorem State.writeFlag_mem (b : Bool) : (s.writeFlag b).mem = s.mem := rfl
@[simp] theorem State.writeFlag_fb (b : Bool) : (s.writeFlag b).fb = s.fb := rfl
@[simp] theorem State.writeFlag_key (b : Bool) : (s.writeFlag b).key = s.key := rfl
@[simp] theorem State.writeFlag_dt (b : Bool) : (s.writeFlag b).dt = s.dt := rfl
@[simp] theorem State.writeFlag_st (b : Bool) : (s.writeFlag b).st = s.st := rfl
@[simp] theorem State.writeFlag_drawFlag (b : Bool) : (s.writeFlag b).drawFlag = s.drawFlag := rfl
@[simp] theorem State.writeFlag_status (b : Bool) : (s.writeFlag b).status = s.status := rfl
@[simp] theorem State.writeFlag_env (b : Bool) : (s.writeFlag b).env = s.env := rfl
@[simp] theorem State.writeFlag_pacing (b : Bool) : (s.writeFlag b).pacing = s.pacing := rfl
@[simp] theorem State.writeFlag_draws (b : Bool) : (s.writeFlag b).draws = s.draws := rfl

/-! ### setI -/

@[simp] theorem State.setI_v (w : Word) : (s.setI w).v = s.v := rfl
@[simp] theorem State.setI_i (w : Word) : (s.setI w).i = w := rfl
@[simp] theorem State.setI_pc (w : Word) : (s.setI w).pc = s.pc := rfl
@[simp] theorem State.setI_stack (w : Word) : (s.setI w).stack = s.stack := rfl
@[simp] theorem State.setI_sp (w : Word) : (s.setI w).sp = s.sp := rfl
@[simp] theorem State.setI_mem (w : Word) : (s.setI w).mem = s.mem := rfl
@[simp] theorem State.setI_fb (w : Word) : (s.setI w).fb = s.fb := rfl
@[simp] theorem State.setI_key (w : Word) : (s.setI w).key = s.key := rfl
@[simp] theorem State.setI_dt (w : Word) : (s.setI w).dt = s.dt := rfl
@[simp] theorem State.setI_st (w : Word) : (s.setI w).st = s.st := rfl
@[simp] theorem State.setI_drawFlag (w : Word) : (s.setI w).drawFlag = s.drawFlag := rfl
@[simp] theorem State.setI_status (w : Word) : (s.setI w).status = s.status := rfl
@[simp] theorem State.setI_env (w : Word) : (s.setI w).env = s.env := rfl
@[simp] theorem State.setI_pacing (w : Word) : (s.setI w).pacing = s.pacing := rfl
@[simp] theorem State.setI_draws (w : Word) : (s.setI w).draws = s.draws := rfl
@[simp] theorem State.readV_setI (w : Word) (q : Reg) : (s.setI w).readV q = s.readV q := rfl

/-! ### setPc -/

@[simp] theorem State.setPc_v (w : Word) : (s.setPc w).v = s.v := rfl
@[simp] theorem State.setPc_i (w : Word) : (s.setPc w).i = s.i := rfl
@[simp] theorem State.setPc_pc (w : Word) : (s.setPc w).pc = w := rfl
@[simp] theorem State.setPc_stack (w : Word) : (s.setPc w).stack = s.stack := rfl
@[simp] theorem State.setPc_sp (w : Word) : (s.setPc w).sp = s.sp := rfl
@[simp] theorem State.setPc_mem (w : Word) : (s.setPc w).mem = s.mem := rfl
@[simp] theorem State.setPc_fb (w : Word) : (s.setPc w).fb = s.fb := rfl
@[simp] theorem State.setPc_key (w : Word) : (s.setPc w).key = s.key := rfl
@[simp] theorem State.setPc_dt (w : Word) : (s.setPc w).dt = s.dt := rfl
@[simp] theorem State.setPc_st (w : Word) : (s.setPc w).st = s.st := rfl
@[simp] theorem State.setPc_drawFlag (w : Word) : (s.setPc w).drawFlag = s.drawFlag := rfl
@[simp] theorem State.setPc_status (w : Word) : (s.setPc w).status = s.status := rfl
@[simp] theorem State.setPc_env (w : Word) : (s.setPc w).env = s.env := rfl
@[simp] theorem State.setPc_pacing (w : Word) : (s.setPc w).pacing = s.pacing := rfl
@[simp] theorem State.setPc_draws (w : Word) : (s.setPc w).draws = s.draws := rfl
@[simp] theorem State.readV_setPc (w : Word) (q : Reg) : (s.setPc w).readV q = s.readV q := rfl

/-! ### advance -/

@[simp] theorem State.advance_v : (s.advance).v = s.v := rfl
@[simp] theorem State.advance_i : (s.advance).i = s.i := rfl
@[simp] theorem State.advance_pc : (s.advance).pc = s.pc + 2 := rfl
@[simp] theorem State.advance_stack : (s.advance).stack = s.stack := rfl
@[simp] theorem State.advance_sp : (s.advance).sp = s.sp := rfl
@[simp] theorem State.advance_mem : (s.advance).mem = s.mem := rfl
@[simp] theorem State.advance_fb : (s.advance).fb = s.fb := rfl
@[simp] theorem State.advance_key : (s.advance).key = s.key := rfl
@[simp] theorem State.advance_dt : (s.advance).dt = s.dt := rfl
@[simp] theorem State.advance_st : (s.advance).st = s.st := rfl
@[simp] theorem State.advance_drawFlag : (s.advance).drawFlag = s.drawFlag := rfl
@[simp] theorem State.advance_status : (s.advance).status = s.status := rfl
@[simp] theorem State.advance_env : (s.advance).env = s.env := rfl
@[simp] theorem State.advance_pacing : (s.advance).pacing = s.pacing := rfl
@[simp] theorem State.advance_draws : (s.advance).draws = s.draws := rfl
@[simp] theorem State.readV_advance (q : Reg) : (s.advance).readV q = s.readV q := rfl

/-! ### setDT -/

@[simp] theorem State.setDT_v (b : Byte) : (s.setDT b).v = s.v := rfl
@[simp] theorem State.setDT_i (b : Byte) : (s.setDT b).i = s.i := rfl
@[simp] theorem State.setDT_pc (b : Byte) : (s.setDT b).pc = s.pc := rfl
@[simp] theorem State.setDT_stack (b : Byte) : (s.setDT b).stack = s.stack := rfl
@[simp] theorem State.setDT_sp (b : Byte) : (s.setDT b).sp = s.sp := rfl
@[simp] theorem State.setDT_mem (b : Byte) : (s.setDT b).mem = s.mem := rfl
@[simp] theorem State.setDT_fb (b : Byte) : (s.setDT b).fb = s.fb := rfl
@[simp] theorem State.setDT_key (b : Byte) : (s.setDT b).key = s.key := rfl
@[simp] theorem State.setDT_dt (b : Byte) : (s.setDT b).dt = b := rfl
@[simp] theorem State.setDT_st (b : Byte) : (s.setDT b).st = s.st := rfl
@[simp] theorem State.setDT_drawFlag (b : Byte) : (s.setDT b).drawFlag = s.drawFlag := rfl
@[simp] theorem State.setDT_status (b : Byte) : (s.setDT b).status = s.status := rfl
@[simp] theorem State.setDT_env (b : Byte) : (s.setDT b).env = s.env := rfl
@[simp] theorem State.setDT_pacing (b : Byte) : (s.setDT b).pacing = s.pacing := rfl
@[simp] theorem State.setDT_draws (b : Byte) : (s.setDT b).draws = s.draws := rfl
@[simp] theorem State.readV_setDT (b : Byte) (q : Reg) : (s.setDT b).readV q = s.readV q := rfl

/-! ### setST -/

@[simp] theorem State.setST_v (b : Byte) : (s.setST b).v = s.v := rfl
@[simp] theorem State.setST_i (b : Byte) : (s.setST b).i = s.i := rfl
@[simp] theorem State.setST_pc (b : Byte) : (s.setST b).pc = s.pc := rfl
@[simp] theorem State.setST_stack (b : Byte) : (s.setST b).stack = s.stack := rfl
@[simp] theorem State.setST_sp (b : Byte) : (s.setST b).sp = s.sp := rfl
@[simp] theorem State.setST_mem (b : Byte) : (s.setST b).mem = s.mem := rfl
@[simp] theorem State.setST_fb (b : Byte) : (s.setST b).fb = s.fb := rfl
@[simp] theorem State.setST_key (b : Byte) : (s.setST b).key = s.key := rfl
@[simp] theorem State.setST_dt (b : Byte) : (s.setST b).dt = s.dt := rfl
@[simp] theorem State.setST_st (b : Byte) : (s.setST b).st = b := rfl
@[simp] theorem State.setST_drawFlag (b : Byte) : (s.setST b).drawFlag = s.drawFlag := rfl
@[simp] theorem State.setST_status (b : Byte) : (s.setST b).status = s.status := rfl
@[simp] theorem State.setST_env (b : Byte) : (s.setST b).env = s.env := rfl
@[simp] theorem State.setST_pacing (b : Byte) : (s.setST b).pacing = s.pacing := rfl
@[simp] theorem State.setST_draws (b : Byte) : (s.setST b).draws = s.draws := rfl
@[simp] theorem State.readV_setST (b : Byte) (q : Reg) : (s.setST b).readV q = s.readV q := rfl

/-! ### setMem -/

@[simp] theorem State.setMem_v (m : Memory) : (s.setMem m).v = s.v := rfl
@[simp] theorem State.setMem_i (m : Memory) : (s.setMem m).i = s.i := rfl
@[simp] theorem State.setMem_pc (m : Memory) : (s.setMem m).pc = s.pc := rfl
@[simp] theorem State.setMem_stack (m : Memory) : (s.setMem m).stack = s.stack := rfl
@[simp] theorem State.setMem_sp (m : Memory) : (s.setMem m).sp = s.sp := rfl
@[simp] theorem State.setMem_mem (m : Memory) : (s.setMem m).mem = m := rfl
@[simp] theorem State.setMem_fb (m : Memory) : (s.setMem m).fb = s.fb := rfl
@[simp] theorem State.setMem_key (m : Memory) : (s.setMem m).key = s.key := rfl
@[simp] theorem State.setMem_dt (m : Memory) : (s.setMem m).dt = s.dt := rfl
@[simp] theorem State.setMem_st (m : Memory) : (s.setMem m).st = s.st := rfl
@[simp] theorem State.setMem_drawFlag (m : Memory) : (s.setMem m).drawFlag = s.drawFlag := rfl
@[simp] theorem State.setMem_status (m : Memory) : (s.setMem m).status = s.status := rfl
@[simp] theorem State.setMem_env (m : Memory) : (s.setMem m).env = s.env := rfl
@[simp] theorem State.setMem_pacing (m : Memory) : (s.setMem m).pacing = s.pacing := rfl
@[simp] theorem State.setMem_draws (m : Memory) : (s.setMem m).draws = s.draws := rfl
@[simp] theorem State.readV_setMem (m : Memory) (q : Reg) : (s.setMem m).readV q = s.readV q := rfl

/-! ### showFb -/

@[simp] theorem State.showFb_v (fb : FrameBuffer) : (s.showFb fb).v = s.v := rfl
@[simp] theorem State.showFb_i (fb : FrameBuffer) : (s.showFb fb).i = s.i := rfl
@[simp] theorem State.showFb_pc (fb : FrameBuffer) : (s.showFb fb).pc = s.pc := rfl
@[simp] theorem State.showFb_stack (fb : FrameBuffer) : (s.showFb fb).stack = s.stack := rfl
@[simp] theorem State.showFb_sp (fb : FrameBuffer) : (s.showFb fb).sp = s.sp := rfl
@[simp] theorem State.showFb_mem (fb : FrameBuffer) : (s.showFb fb).mem = s.mem := rfl
@[simp] theorem State.showFb_fb (fb : FrameBuffer) : (s.showFb fb).fb = fb := rfl
@[simp] theorem State.showFb_key (fb : FrameBuffer) : (s.showFb fb).key = s.key := rfl
@[simp] theorem State.showFb_dt (fb : FrameBuffer) : (s.showFb fb).dt = s.dt := rfl
@[simp] theorem State.showFb_st (fb : FrameBuffer) : (s.showFb fb).st = s.st := rfl
@[simp] theorem State.showFb_drawFlag (fb : FrameBuffer) : (s.showFb fb).drawFlag = true := rfl
@[simp] theorem State.showFb_status (fb : FrameBuffer) : (s.showFb fb).status = s.status := rfl
@[simp] theorem State.showFb_env (fb : FrameBuffer) : (s.showFb fb).env = s.env := rfl
@[simp] theorem State.showFb_pacing (fb : FrameBuffer) : (s.showFb fb).pacing = s.pacing := rfl
@[simp] theorem State.showFb_draws (fb : FrameBuffer) : (s.showFb fb).draws = s.draws := rfl
@[simp] theorem State.readV_showFb (fb : FrameBuffer) (q : Reg) : (s.showFb fb).readV q = s.readV q := rfl

/-! ### countDraw -/

@[simp] theorem State.countDraw_v : (s.countDraw).v = s.v := rfl
@[simp] theorem State.countDraw_i : (s.countDraw).i = s.i := rfl
@[simp] theorem State.countDraw_pc : (s.countDraw).pc = s.pc := rfl
@[simp] theorem State.countDraw_stack : (s.countDraw).stack = s.stack := rfl
@[simp] theorem State.countDraw_sp : (s.countDraw).sp = s.sp := rfl
@[simp] theorem State.countDraw_mem : (s.countDraw).mem = s.mem := rfl
@[simp] theorem State.countDraw_fb : (s.countDraw).fb = s.fb := rfl
@[simp] theorem State.countDraw_key : (s.countDraw).key = s.key := rfl
@[simp] theorem State.countDraw_dt : (s.countDraw).dt = s.dt := rfl
@[simp] theorem State.countDraw_st : (s.countDraw).st = s.st := rfl
@[simp] theorem State.countDraw_drawFlag : (s.countDraw).drawFlag = s.drawFlag := rfl
@[simp] theorem State.countDraw_status : (s.countDraw).status = s.status := rfl
@[simp] theorem State.countDraw_env : (s.countDraw).env = s.env := rfl
@[simp] theorem State.countDraw_pacing : (s.countDraw).pacing = s.pacing := rfl
@[simp] theorem State.countDraw_draws : (s.countDraw).draws = s.draws + 1 := rfl
@[simp] theorem State.readV_countDraw (q : Reg) : (s.countDraw).readV q = s.readV q := rfl

/-! ### setEnv -/

@[simp] theorem State.setEnv_v (ms : List Move) : (s.setEnv ms).v = s.v := rfl
@[simp] theorem State.setEnv_i (ms : List Move) : (s.setEnv ms).i = s.i := rfl
@[simp] theorem State.setEnv_pc (ms : List Move) : (s.setEnv ms).pc = s.pc := rfl
@[simp] theorem State.setEnv_stack (ms : List Move) : (s.setEnv ms).stack = s.stack := rfl
@[simp] theorem State.setEnv_sp (ms : List Move) : (s.setEnv ms).sp = s.sp := rfl
@[simp] theorem State.setEnv_mem (ms : List Move) : (s.setEnv ms).mem = s.mem := rfl
@[simp] theorem State.setEnv_fb (ms : List Move) : (s.setEnv ms).fb = s.fb := rfl
@[simp] theorem State.setEnv_key (ms : List Move) : (s.setEnv ms).key = s.key := rfl
@[simp] theorem State.setEnv_dt (ms : List Move) : (s.setEnv ms).dt = s.dt := rfl
@[simp] theorem State.setEnv_st (ms : List Move) : (s.setEnv ms).st = s.st := rfl
@[simp] theorem State.setEnv_drawFlag (ms : List Move) : (s.setEnv ms).drawFlag = s.drawFlag := rfl
@[simp] theorem State.setEnv_status (ms : List Move) : (s.setEnv ms).status = s.status := rfl
@[simp] theorem State.setEnv_env (ms : List Move) : (s.setEnv ms).env = ms := rfl
@[simp] theorem State.setEnv_pacing (ms : List Move) : (s.setEnv ms).pacing = s.pacing := rfl
@[simp] theorem State.setEnv_draws (ms : List Move) : (s.setEnv ms).draws = s.draws := rfl
@[simp] theorem State.readV_setEnv (ms : List Move) (q : Reg) : (s.setEnv ms).readV q = s.readV q := rfl

/-! ### setPacing -/

@[simp] theorem State.setPacing_v (p : Pacing) : (s.setPacing p).v = s.v := rfl
@[simp] theorem State.setPacing_i (p : Pacing) : (s.setPacing p).i = s.i := rfl
@[simp] theorem State.setPacing_pc (p : Pacing) : (s.setPacing p).pc = s.pc := rfl
@[simp] theorem State.setPacing_stack (p : Pacing) : (s.setPacing p).stack = s.stack := rfl
@[simp] theorem State.setPacing_sp (p : Pacing) : (s.setPacing p).sp = s.sp := rfl
@[simp] theorem State.setPacing_mem (p : Pacing) : (s.setPacing p).mem = s.mem := rfl
@[simp] theorem State.setPacing_fb (p : Pacing) : (s.setPacing p).fb = s.fb := rfl
@[simp] theorem State.setPacing_key (p : Pacing) : (s.setPacing p).key = s.key := rfl
@[simp] theorem State.setPacing_dt (p : Pacing) : (s.setPacing p).dt = s.dt := rfl
@[simp] theorem State.setPacing_st (p : Pacing) : (s.setPacing p).st = s.st := rfl
@[simp] theorem State.setPacing_drawFlag (p : Pacing) : (s.setPacing p).drawFlag = s.drawFlag := rfl
@[simp] theorem State.setPacing_status (p : Pacing) : (s.setPacing p).status = s.status := rfl
@[simp] theorem State.setPacing_env (p : Pacing) : (s.setPacing p).env = s.env := rfl
@[simp] theorem State.setPacing_pacing (p : Pacing) : (s.setPacing p).pacing = p := rfl
@[simp] theorem State.setPacing_draws (p : Pacing) : (s.setPacing p).draws = s.draws := rfl
@[simp] theorem State.readV_setPacing (p : Pacing) (q : Reg) : (s.setPacing p).readV q = s.readV q := rfl

/-! ### halt -/

@[simp] theorem State.halt_v (k : FaultKind) (w : Word) : (s.halt k w).v = s.v := rfl
@[simp] theorem State.halt_i (k : FaultKind) (w : Word) : (s.halt k w).i = s.i := rfl
@[simp] theorem State.halt_pc (k : FaultKind) (w : Word) : (s.halt k w).pc = s.pc := rfl
@[simp] theorem State.halt_stack (k : FaultKind) (w : Word) : (s.halt k w).stack = s.stack := rfl
@[simp] theorem State.halt_sp (k : FaultKind) (w : Word) : (s.halt k w).sp = s.sp := rfl
@[simp] theorem State.halt_mem (k : FaultKind) (w : Word) : (s.halt k w).mem = s.mem := rfl
@[simp] theorem State.halt_fb (k : FaultKind) (w : Word) : (s.halt k w).fb = s.fb := rfl
@[simp] theorem State.halt_key (k : FaultKind) (w : Word) : (s.halt k w).key = s.key := rfl
@[simp] theorem State.halt_dt (k : FaultKind) (w : Word) : (s.halt k w).dt = s.dt := rfl
@[simp] theorem State.halt_st (k : FaultKind) (w : Word) : (s.halt k w).st = s.st := rfl
@[simp] theorem State.halt_drawFlag (k : FaultKind) (w : Word) : (s.halt k w).drawFlag = s.drawFlag := rfl
@[simp] theorem State.halt_status (k : FaultKind) (w : Word) : (s.halt k w).status = .halted k w s.pc := rfl
@[simp] theorem State.halt_env (k : FaultKind) (w : Word) : (s.halt k w).env = s.env := rfl
@[simp] theorem State.halt_pacing (k : FaultKind) (w : Word) : (s.halt k w).pacing = s.pacing := rfl
@[simp] theorem State.halt_draws (k : FaultKind) (w : Word) : (s.halt k w).draws = s.draws := rfl
@[simp] theorem State.readV_halt (k : FaultKind) (w : Word) (q : Reg) : (s.halt k w).readV q = s.readV q := rfl

/-! ### setKey -/

@[simp] theorem State.setKey_v (k : Fin 16) (down : Bool) : (s.setKey k down).v = s.v := rfl
@[simp] theorem State.setKey_i (k : Fin 16) (down : Bool) : (s.setKey k down).i = s.i := rfl
@[simp] theorem State.setKey_pc (k : Fin 16) (down : Bool) : (s.setKey k down).pc = s.pc := rfl
@[simp] theorem State.setKey_stack (k : Fin 16) (down : Bool) : (s.setKey k down).stack = s.stack := rfl
@[simp] theorem State.setKey_sp (k : Fin 16) (down : Bool) : (s.setKey k down).sp = s.sp := rfl
@[simp] theorem State.setKey_mem (k : Fin 16) (down : Bool) : (s.setKey k down).mem = s.mem := rfl
@[simp] theorem State.setKey_fb (k : Fin 16) (down : Bool) : (s.setKey k down).fb = s.fb := rfl
@[simp] theorem State.setKey_key (k : Fin 16) (down : Bool) : (s.setKey k down).key = s.key.set k.val down := rfl
@[simp] theorem State.setKey_dt (k : Fin 16) (down : Bool) : (s.setKey k down).dt = s.dt := rfl
@[simp] theorem State.setKey_st (k : Fin 16) (down : Bool) : (s.setKey k down).st = s.st := rfl
@[simp] theorem State.setKey_drawFlag (k : Fin 16) (down : Bool) : (s.setKey k down).drawFlag = s.drawFlag := rfl
@[simp] theorem State.setKey_status (k : Fin 16) (down : Bool) : (s.setKey k down).status = s.status := rfl
@[simp] theorem State.setKey_env (k : Fin 16) (down : Bool) : (s.setKey k down).env = s.env := rfl
@[simp] theorem State.setKey_pacing (k : Fin 16) (down : Bool) : (s.setKey k down).pacing = s.pacing := rfl
@[simp] theorem State.setKey_draws (k : Fin 16) (down : Bool) : (s.setKey k down).draws = s.draws := rfl
@[simp] theorem State.readV_setKey (k : Fin 16) (down : Bool) (q : Reg) : (s.setKey k down).readV q = s.readV q := rfl

/-! ### presentDone -/

@[simp] theorem State.presentDone_v : (s.presentDone).v = s.v := rfl
@[simp] theorem State.presentDone_i : (s.presentDone).i = s.i := rfl
@[simp] theorem State.presentDone_pc : (s.presentDone).pc = s.pc := rfl
@[simp] theorem State.presentDone_stack : (s.presentDone).stack = s.stack := rfl
@[simp] theorem State.presentDone_sp : (s.presentDone).sp = s.sp := rfl
@[simp] theorem State.presentDone_mem : (s.presentDone).mem = s.mem := rfl
@[simp] theorem State.presentDone_fb : (s.presentDone).fb = s.fb := rfl
@[simp] theorem State.presentDone_key : (s.presentDone).key = s.key := rfl
@[simp] theorem State.presentDone_dt : (s.presentDone).dt = s.dt := rfl
@[simp] theorem State.presentDone_st : (s.presentDone).st = s.st := rfl
@[simp] theorem State.presentDone_drawFlag : (s.presentDone).drawFlag = false := rfl
@[simp] theorem State.presentDone_status : (s.presentDone).status = s.status := rfl
@[simp] theorem State.presentDone_env : (s.presentDone).env = s.env := rfl
@[simp] theorem State.presentDone_pacing : (s.presentDone).pacing = s.pacing := rfl
@[simp] theorem State.presentDone_draws : (s.presentDone).draws = s.draws := rfl
@[simp] theorem State.readV_presentDone (q : Reg) : (s.presentDone).readV q = s.readV q := rfl

/-! ### applyReset -/

@[simp] theorem State.applyReset_v : (s.applyReset).v = Vector.replicate 16 0 := rfl
@[simp] theorem State.applyReset_i : (s.applyReset).i = 0 := rfl
@[simp] theorem State.applyReset_pc : (s.applyReset).pc = 0x200 := rfl
@[simp] theorem State.applyReset_stack : (s.applyReset).stack = Vector.replicate 16 0 := rfl
@[simp] theorem State.applyReset_sp : (s.applyReset).sp = 0 := rfl
@[simp] theorem State.applyReset_mem : (s.applyReset).mem = ⟨s.mem.font, []⟩ := rfl
@[simp] theorem State.applyReset_fb : (s.applyReset).fb = Vector.replicate 32 0 := rfl
@[simp] theorem State.applyReset_key : (s.applyReset).key = Vector.replicate 16 false := rfl
@[simp] theorem State.applyReset_dt : (s.applyReset).dt = 0 := rfl
@[simp] theorem State.applyReset_st : (s.applyReset).st = 0 := rfl
@[simp] theorem State.applyReset_drawFlag : (s.applyReset).drawFlag = false := rfl
@[simp] theorem State.applyReset_status : (s.applyReset).status = .running := rfl
@[simp] theorem State.applyReset_env : (s.applyReset).env = s.env := rfl
@[simp] theorem State.applyReset_pacing : (s.applyReset).pacing = s.pacing := rfl
@[simp] theorem State.applyReset_draws : (s.applyReset).draws = s.draws := rfl

/-! ### Registers -/

theorem State.readV_writeV (r q : Reg) (b : Byte) :
    (s.writeV r b).readV q = if q = r then b else s.readV q := by
  simp only [State.readV, State.writeV, Vector.getElem_set, Fin.ext_iff, eq_comm]

@[simp] theorem State.readV_writeV_same (r : Reg) (b : Byte) : (s.writeV r b).readV r = b := by
  simp [State.readV_writeV]

theorem State.readV_writeV_other {r q : Reg} (b : Byte) (h : q ≠ r) : (s.writeV r b).readV q = s.readV q := by
  simp [State.readV_writeV, h]

theorem State.readV_writeFlag (q : Reg) (b : Bool) :
    (s.writeFlag b).readV q = if q = VF then flagByte b else s.readV q := State.readV_writeV s VF q _

/-- Two register files that read alike are the same. -/
theorem State.v_ext {s t : State} (h : ∀ r, t.readV r = s.readV r) : t.v = s.v :=
  Vector.ext fun k hk => h ⟨k, hk⟩

/-! ### Ticks -/

theorem State.tick_running (h : s.status = .running) :
    s.tick = (s.setDT (countDown s.dt)).setST (countDown s.st) := by
  simp [State.tick, h]

theorem State.tick_halted {k : FaultKind} {w pc : Word} (h : s.status = .halted k w pc) : s.tick = s := by
  simp [State.tick, h]

/-- A tick touches the two timers only. -/
theorem State.tick_eq : ∃ d e, s.tick = (s.setDT d).setST e := by
  unfold State.tick
  cases s.status with
  | running => exact ⟨_, _, rfl⟩
  | halted k w pc => exact ⟨s.dt, s.st, rfl⟩

/-- A timer counts down to zero and stays there (rule R228). -/
theorem countDown_toNat (t : Byte) : (countDown t).toNat = t.toNat - 1 := by
  unfold countDown
  split <;> bv_omega

end Sys2Proof.Machine
end

