-- ==== Sys2Proof/Laws/Ops.lean ====
section
/-! SUPPORT. One lemma for each shared operation: everything it can do. Later proofs cite these and unfold nothing. -/

namespace Sys2Proof.Machine

variable {s t : State}

/-! ## Call stack -/

/-- `push` succeeds exactly when a slot is free, writes that slot and counts it (rule R31). -/
theorem State.push_eq_some {w : Word} :
    s.push w = some t ↔ ∃ h : s.sp.val < 16, t = { s with stack := s.stack.set s.sp.val w, sp := ⟨s.sp.val + 1, by omega⟩ } := by
  unfold State.push
  split
  · next h => simp [h, eq_comm]
  · next h => simp [h]

theorem State.push_eq_none {w : Word} : s.push w = none ↔ s.sp.val = 16 := by
  have := s.sp.isLt
  unfold State.push
  split
  · next h => simp; omega
  · next h => simp; omega

/-- `pop` succeeds exactly when a slot is in use, answers the newest and leaves it in place (rules R31, R32). -/
theorem State.pop_eq_some {w : Word} :
    s.pop = some (w, t) ↔ ∃ h : 0 < s.sp.val, w = s.stack[s.sp.val - 1] ∧
      t = { s with sp := ⟨s.sp.val - 1, by omega⟩ } := by
  unfold State.pop
  split
  · next h => simp [h, eq_comm]
  · next h => simp [h]

theorem State.pop_eq_none : s.pop = none ↔ s.sp.val = 0 := by
  unfold State.pop
  split
  · next h => simp; omega
  · next h => simp; omega

/-! ## Fetch -/

/-- A fetch succeeds exactly when both bytes lie in memory, and combines them high byte first (rule R64). -/
theorem State.fetch_eq_some {w : Word} :
    s.fetch = some w ↔ s.pc.toNat + 1 ≤ 0xFFF ∧ w = wordOfBytes (s.mem.read s.pc.toNat) (s.mem.read (s.pc.toNat + 1)) := by
  unfold State.fetch
  split
  · next h => simp [h, eq_comm]
  · next h => simp [h]

theorem State.fetch_eq_none : s.fetch = none ↔ 0xFFF < s.pc.toNat + 1 := by
  unfold State.fetch
  split
  · next h => simp; omega
  · next h => simp; omega

/-- A fetch sees `PC` and memory alone. -/
theorem State.fetch_congr (hp : t.pc = s.pc) (hm : ∀ a, t.mem.read a = s.mem.read a) : t.fetch = s.fetch := by
  simp only [State.fetch, hp, hm]

/-! ## Operands -/

theorem State.addressable_iff {k : Nat} : s.addressable k = true ↔ s.i.toNat + k ≤ 0xFFF := by
  unfold State.addressable State.effectiveAddr
  exact decide_eq_true_iff

theorem State.spriteFits_iff {n : Nibble} : s.spriteFits n = true ↔ n.val = 0 ∨ s.i.toNat + (n.val - 1) ≤ 0xFFF := by
  simp [State.spriteFits, State.addressable_iff]

@[simp] theorem State.effectiveAddr_zero : s.effectiveAddr 0 = s.i.toNat := rfl

theorem State.keyIndex_eq_some {x : Reg} {k : Nat} :
    s.keyIndex x = some k ↔ (s.readV x).toNat ≤ 0xF ∧ k = (s.readV x).toNat := by
  unfold State.keyIndex
  split
  · next h => simp [h, eq_comm]
  · next h => simp [h]

theorem State.keyIndex_eq_none {x : Reg} : s.keyIndex x = none ↔ 0xF < (s.readV x).toNat := by
  unfold State.keyIndex
  split
  · next h => simp; omega
  · next h => simp; omega

@[simp] theorem State.regsThrough_length (x : Reg) : (s.regsThrough x).length = x.val + 1 := by
  simp [State.regsThrough]

theorem State.regsThrough_getElem (x : Reg) {k : Nat} (h : k < (s.regsThrough x).length) :
    (s.regsThrough x)[k] = s.readV ⟨k, by simp at h; omega⟩ := by
  simp [State.regsThrough, State.readV]

@[simp] theorem bcdDigits_length (a : Byte) : (bcdDigits a).length = 3 := rfl

/-- The register file after a load of `count` registers (rule R166). -/
theorem loadVs_getElem (m : Memory) (base : Nat) (v : Vector Byte 16) (count : Nat) {k : Nat} (hk : k < 16) :
    (loadVs m base v count)[k] = if k < count then m.read (base + k) else v[k] := by
  induction count with
  | zero => simp [loadVs]
  | succ c ih =>
    simp only [loadVs, Vector.getElem_setIfInBounds, ih]
    by_cases h : c = k
    · rw [if_pos h, if_pos (by omega), h]
    · rw [if_neg h]
      by_cases h' : k < c
      · rw [if_pos h', if_pos (by omega)]
      · rw [if_neg h', if_neg (by omega)]

/-! ## Keypad -/

theorem State.keyDown_eq {k : Nat} (h : k < 16) : s.keyDown k = s.key[k] := by
  have h' : k < s.key.toList.length := by simpa using h
  simp only [State.keyDown, List.getD_eq_getElem?_getD, List.getElem?_eq_getElem h', Option.getD_some, Vector.getElem_toList]

theorem State.mem_pressedKeys {k : Nat} : k ∈ s.pressedKeys ↔ k < 16 ∧ s.keyDown k = true := by
  simp only [State.pressedKeys, List.mem_filter, List.mem_range]

theorem pickKey_eq_none {choice : Nat} {ks : List Nat} : pickKey choice ks = none ↔ ks = [] := by
  match ks with
  | [] => simp [pickKey]
  | [k] => simp [pickKey]
  | k :: l :: ks =>
    have : choice % (k :: l :: ks).length < (k :: l :: ks).length := Nat.mod_lt _ (by simp)
    simp only [pickKey, List.getElem?_eq_getElem this]
    simp

/-- The key picked is a member of the set, whatever the free value (rule R193). -/
theorem pickKey_mem {choice k : Nat} {ks : List Nat} (h : pickKey choice ks = some k) : k ∈ ks := by
  match ks with
  | [] => simp [pickKey] at h
  | [l] => simp [pickKey] at h; simp [h]
  | a :: b :: ks => exact List.mem_of_getElem? h

/-- Every member of the set can be picked. -/
theorem pickKey_surj {k : Nat} {ks : List Nat} (h : k ∈ ks) : ∃ choice, pickKey choice ks = some k := by
  match ks with
  | [] => simp at h
  | [l] => exact ⟨0, by simp at h; simp [pickKey, h]⟩
  | a :: b :: ks =>
    obtain ⟨j, hj, e⟩ := List.getElem_of_mem h
    refine ⟨j, ?_⟩
    simp only [pickKey, Nat.mod_eq_of_lt hj, List.getElem?_eq_getElem hj, e]

/-! ## How an instruction ends -/

theorem raise_eq (kind : FaultKind) (w : Word) : raise kind w s = .next (s.halt kind w) := rfl

theorem finishReg_eq (x : Reg) (b : Byte) : finishReg x b s = .next (s.writeV x b).advance := rfl

theorem finishRegFlag_eq (x : Reg) (f : Bool) (b : Byte) :
    finishRegFlag x f b s = .next ((s.writeFlag f).writeV x b).advance := rfl

theorem skipIf_eq (c : Bool) : skipIf c s = .next (s.setPc (if c then s.pc + 4 else s.pc + 2)) := rfl

/-- What `V[q]` holds after a flag and a result have been written: the result wins where both go to `VF` (rule R23). -/
theorem State.readV_flag_result (x q : Reg) (f : Bool) (b : Byte) :
    ((s.writeFlag f).writeV x b).readV q = if q = x then b else if q = VF then flagByte f else s.readV q := by
  rw [State.readV_writeV, State.readV_writeFlag]

@[simp] theorem flagByte_true : flagByte true = 1 := rfl
@[simp] theorem flagByte_false : flagByte false = 0 := rfl

theorem flagByte_toNat (b : Bool) : (flagByte b).toNat = if b then 1 else 0 := by cases b <;> rfl

end Sys2Proof.Machine
end

