-- ==== Sys2Proof/Laws/PerInstr.lean ====
section
/-! SUPPORT. Laws made one instruction at a time. `MatchesRow`: the word of an instruction, masked, is the fixed bits of its row of
rule R96. -/

namespace Sys2Proof.Laws.MatchesRow

/-- The encoding of an instruction, masked with its row's mask, is its row's `match` (rule R96). -/
def Statement (i : Instr) : Prop :=
  ∃ row ∈ opcodeTable, row.number = i.rowNumber ∧ encode i &&& row.mask = row.bits

/-! The masks keep the fixed fields of a format and clear the others. -/

theorem formatA_mask (cat : BitVec 4) (nnn : BitVec 12) : formatA cat nnn &&& 0xF000 = formatA cat 0 := by
  have h : (0xF000 : Word) = BitVec.allOnes 4 ++ 0#12 := by decide
  rw [h]
  refine (BitVec.and_append (w := 4) (v := 12)).trans ?_
  rw [BitVec.and_allOnes, BitVec.and_zero]
  rfl

theorem formatXB_mask (cat : BitVec 4) (x : Reg) (nn : Byte) : formatXB cat x nn &&& 0xF0FF = formatXB cat 0 nn := by
  have h : (0xF0FF : Word) = (BitVec.allOnes 4 ++ 0#4) ++ BitVec.allOnes 8 := by decide
  have h' : (cat ++ BitVec.ofFin (w := 4) x) &&& (BitVec.allOnes 4 ++ 0#4) = cat ++ 0#4 := by
    rw [BitVec.and_append, BitVec.and_allOnes, BitVec.and_zero]
  rw [h]
  refine (BitVec.and_append (w := 8) (v := 8)).trans ?_
  rw [BitVec.and_allOnes, h']
  rfl

theorem formatXB_maskCat (cat : BitVec 4) (x : Reg) (nn : Byte) : formatXB cat x nn &&& 0xF000 = formatXB cat 0 0 := by
  have h : (0xF000 : Word) = (BitVec.allOnes 4 ++ 0#4) ++ 0#8 := by decide
  have h' : (cat ++ BitVec.ofFin (w := 4) x) &&& (BitVec.allOnes 4 ++ 0#4) = cat ++ 0#4 := by
    rw [BitVec.and_append, BitVec.and_allOnes, BitVec.and_zero]
  rw [h]
  refine (BitVec.and_append (w := 8) (v := 8)).trans ?_
  rw [BitVec.and_zero, h']
  rfl

theorem formatXYN_mask (cat : BitVec 4) (x y : Reg) (n : Nibble) :
    formatXYN cat x y n &&& 0xF00F = formatXYN cat 0 0 n := by
  have h : (0xF00F : Word) = (BitVec.allOnes 4 ++ 0#4) ++ (0#4 ++ BitVec.allOnes 4) := by decide
  have h1 : (cat ++ BitVec.ofFin (w := 4) x) &&& (BitVec.allOnes 4 ++ 0#4) = cat ++ 0#4 := by
    rw [BitVec.and_append, BitVec.and_allOnes, BitVec.and_zero]
  have h2 : (BitVec.ofFin (w := 4) y ++ BitVec.ofFin (w := 4) n) &&& (0#4 ++ BitVec.allOnes 4) =
      0#4 ++ BitVec.ofFin (w := 4) n := by
    rw [BitVec.and_append, BitVec.and_allOnes, BitVec.and_zero]
  rw [h]
  refine (BitVec.and_append (w := 8) (v := 8)).trans ?_
  rw [h1, h2]
  rfl

theorem formatXYN_maskCat (cat : BitVec 4) (x y : Reg) (n : Nibble) :
    formatXYN cat x y n &&& 0xF000 = formatXYN cat 0 0 0 := by
  have h : (0xF000 : Word) = (BitVec.allOnes 4 ++ 0#4) ++ 0#8 := by decide
  have h1 : (cat ++ BitVec.ofFin (w := 4) x) &&& (BitVec.allOnes 4 ++ 0#4) = cat ++ 0#4 := by
    rw [BitVec.and_append, BitVec.and_allOnes, BitVec.and_zero]
  rw [h]
  refine (BitVec.and_append (w := 8) (v := 8)).trans ?_
  rw [h1, BitVec.and_zero]
  rfl

/-! One lemma per instruction. -/

theorem cls : Statement .cls :=
  ⟨⟨1, 0x00E0, 0xFFFF⟩, by decide, rfl, rfl⟩

theorem ret : Statement .ret :=
  ⟨⟨2, 0x00EE, 0xFFFF⟩, by decide, rfl, rfl⟩

theorem jp (nnn : BitVec 12) : Statement (.jp nnn) :=
  ⟨⟨3, 0x1000, 0xF000⟩, by decide, rfl, formatA_mask 0x1 nnn⟩

theorem call (nnn : BitVec 12) : Statement (.call nnn) :=
  ⟨⟨4, 0x2000, 0xF000⟩, by decide, rfl, formatA_mask 0x2 nnn⟩

theorem seImm (x : Reg) (nn : Byte) : Statement (.seImm x nn) :=
  ⟨⟨5, 0x3000, 0xF000⟩, by decide, rfl, formatXB_maskCat 0x3 x nn⟩

theorem sneImm (x : Reg) (nn : Byte) : Statement (.sneImm x nn) :=
  ⟨⟨6, 0x4000, 0xF000⟩, by decide, rfl, formatXB_maskCat 0x4 x nn⟩

theorem seReg (x y : Reg) (n : Nibble) : Statement (.seReg x y n) :=
  ⟨⟨7, 0x5000, 0xF000⟩, by decide, rfl, formatXYN_maskCat 0x5 x y n⟩

theorem ldImm (x : Reg) (nn : Byte) : Statement (.ldImm x nn) :=
  ⟨⟨8, 0x6000, 0xF000⟩, by decide, rfl, formatXB_maskCat 0x6 x nn⟩

theorem addImm (x : Reg) (nn : Byte) : Statement (.addImm x nn) :=
  ⟨⟨9, 0x7000, 0xF000⟩, by decide, rfl, formatXB_maskCat 0x7 x nn⟩

theorem ldReg (x y : Reg) : Statement (.ldReg x y) :=
  ⟨⟨10, 0x8000, 0xF00F⟩, by decide, rfl, formatXYN_mask 0x8 x y 0x0⟩

theorem orReg (x y : Reg) : Statement (.orReg x y) :=
  ⟨⟨11, 0x8001, 0xF00F⟩, by decide, rfl, formatXYN_mask 0x8 x y 0x1⟩

theorem andReg (x y : Reg) : Statement (.andReg x y) :=
  ⟨⟨12, 0x8002, 0xF00F⟩, by decide, rfl, formatXYN_mask 0x8 x y 0x2⟩

theorem xorReg (x y : Reg) : Statement (.xorReg x y) :=
  ⟨⟨13, 0x8003, 0xF00F⟩, by decide, rfl, formatXYN_mask 0x8 x y 0x3⟩

theorem addReg (x y : Reg) : Statement (.addReg x y) :=
  ⟨⟨14, 0x8004, 0xF00F⟩, by decide, rfl, formatXYN_mask 0x8 x y 0x4⟩

theorem subReg (x y : Reg) : Statement (.subReg x y) :=
  ⟨⟨15, 0x8005, 0xF00F⟩, by decide, rfl, formatXYN_mask 0x8 x y 0x5⟩

theorem shr (x y : Reg) : Statement (.shr x y) :=
  ⟨⟨16, 0x8006, 0xF00F⟩, by decide, rfl, formatXYN_mask 0x8 x y 0x6⟩

theorem subn (x y : Reg) : Statement (.subn x y) :=
  ⟨⟨17, 0x8007, 0xF00F⟩, by decide, rfl, formatXYN_mask 0x8 x y 0x7⟩

theorem shl (x y : Reg) : Statement (.shl x y) :=
  ⟨⟨18, 0x800E, 0xF00F⟩, by decide, rfl, formatXYN_mask 0x8 x y 0xE⟩

theorem sneReg (x y : Reg) (n : Nibble) : Statement (.sneReg x y n) :=
  ⟨⟨19, 0x9000, 0xF000⟩, by decide, rfl, formatXYN_maskCat 0x9 x y n⟩

theorem ldI (nnn : BitVec 12) : Statement (.ldI nnn) :=
  ⟨⟨20, 0xA000, 0xF000⟩, by decide, rfl, formatA_mask 0xA nnn⟩

theorem jpV0 (nnn : BitVec 12) : Statement (.jpV0 nnn) :=
  ⟨⟨21, 0xB000, 0xF000⟩, by decide, rfl, formatA_mask 0xB nnn⟩

theorem rnd (x : Reg) (nn : Byte) : Statement (.rnd x nn) :=
  ⟨⟨22, 0xC000, 0xF000⟩, by decide, rfl, formatXB_maskCat 0xC x nn⟩

theorem drw (x y : Reg) (n : Nibble) : Statement (.drw x y n) :=
  ⟨⟨23, 0xD000, 0xF000⟩, by decide, rfl, formatXYN_maskCat 0xD x y n⟩

theorem skp (x : Reg) : Statement (.skp x) :=
  ⟨⟨24, 0xE09E, 0xF0FF⟩, by decide, rfl, formatXB_mask 0xE x 0x9E⟩

theorem sknp (x : Reg) : Statement (.sknp x) :=
  ⟨⟨25, 0xE0A1, 0xF0FF⟩, by decide, rfl, formatXB_mask 0xE x 0xA1⟩

theorem ldVxDT (x : Reg) : Statement (.ldVxDT x) :=
  ⟨⟨26, 0xF007, 0xF0FF⟩, by decide, rfl, formatXB_mask 0xF x 0x07⟩

theorem ldVxK (x : Reg) : Statement (.ldVxK x) :=
  ⟨⟨27, 0xF00A, 0xF0FF⟩, by decide, rfl, formatXB_mask 0xF x 0x0A⟩

theorem ldDTVx (x : Reg) : Statement (.ldDTVx x) :=
  ⟨⟨28, 0xF015, 0xF0FF⟩, by decide, rfl, formatXB_mask 0xF x 0x15⟩

theorem ldSTVx (x : Reg) : Statement (.ldSTVx x) :=
  ⟨⟨29, 0xF018, 0xF0FF⟩, by decide, rfl, formatXB_mask 0xF x 0x18⟩

theorem addI (x : Reg) : Statement (.addI x) :=
  ⟨⟨30, 0xF01E, 0xF0FF⟩, by decide, rfl, formatXB_mask 0xF x 0x1E⟩

theorem ldF (x : Reg) : Statement (.ldF x) :=
  ⟨⟨31, 0xF029, 0xF0FF⟩, by decide, rfl, formatXB_mask 0xF x 0x29⟩

theorem ldB (x : Reg) : Statement (.ldB x) :=
  ⟨⟨32, 0xF033, 0xF0FF⟩, by decide, rfl, formatXB_mask 0xF x 0x33⟩

theorem storeRegs (x : Reg) : Statement (.storeRegs x) :=
  ⟨⟨33, 0xF055, 0xF0FF⟩, by decide, rfl, formatXB_mask 0xF x 0x55⟩

theorem loadRegs (x : Reg) : Statement (.loadRegs x) :=
  ⟨⟨34, 0xF065, 0xF0FF⟩, by decide, rfl, formatXB_mask 0xF x 0x65⟩

end Sys2Proof.Laws.MatchesRow
end

