-- ==== Sys2Proof/Laws/Step.lean ====
section
/-! SUPPORT. What a transition can do, said once: the cases of an instruction step and of a move of the environment. -/

namespace Sys2Proof.Machine

variable {s t : State}

/-- The outcomes of an instruction step: nothing while halted, a failed fetch, an illegal word, or the decoded instruction. -/
theorem coreStep_cases (h : coreStep s = .next t) :
    ((∃ kind w pc, s.status = .halted kind w pc) ∧ t = s) ∨
    (s.status = .running ∧ s.fetch = none ∧ t = s.halt .fetchOutOfBounds 0x0000) ∨
    (∃ w e, s.status = .running ∧ s.fetch = some w ∧ decodeWord w = .error e ∧ t = s.halt .illegalInstruction w) ∨
    (∃ w i, s.status = .running ∧ s.fetch = some w ∧ decodeWord w = .ok i ∧ exec i s = .next t) := by
  unfold coreStep at h
  split at h
  case h_2 kind w pc hs => exact .inl ⟨⟨kind, w, pc, hs⟩, by injection h with h; exact h.symm⟩
  case h_1 hs =>
    unfold fetchAndRun at h
    split at h
    case h_2 hf => exact .inr (.inl ⟨hs, hf, by injection h with h; exact h.symm⟩)
    case h_1 w hf =>
      unfold runWord at h
      split at h
      case h_1 i hd => exact .inr (.inr (.inr ⟨w, i, hs, hf, hd, h⟩))
      case h_2 e hd => exact .inr (.inr (.inl ⟨w, e, hs, hf, hd, by injection h with h; exact h.symm⟩))

theorem coreStep_halted {kind : FaultKind} {w pc : Word} (h : s.status = .halted kind w pc) : coreStep s = .next s := by
  simp only [coreStep, h]

theorem coreStep_fetched {w : Word} (hs : s.status = .running) (hf : s.fetch = some w) : coreStep s = runWord w s := by
  simp only [coreStep, hs, fetchAndRun, hf]

theorem coreStep_beyond (hs : s.status = .running) (hf : s.fetch = none) :
    coreStep s = .next (s.halt .fetchOutOfBounds 0x0000) := by
  simp only [coreStep, hs, fetchAndRun, hf, raise_eq]

theorem runWord_ok {w : Word} {i : Instr} (h : decodeWord w = .ok i) : runWord w s = exec i s := by
  simp only [runWord, h]

theorem runWord_error {w : Word} {e : Reject} (h : decodeWord w = .error e) :
    runWord w s = .next (s.halt .illegalInstruction w) := by
  simp only [runWord, h, raise_eq]

theorem nextMove_nil (h : s.env = []) : nextMove s = (s.pacing.next.1, s.setPacing s.pacing.next.2) := by simp only [nextMove, h]

theorem setPacing_self {p : Pacing} (h : s.pacing = p) : s.setPacing p = s := by rw [← h]; rfl

theorem nextMove_steps (h : s.env = []) (hp : s.pacing = .steps) : nextMove s = (.step, s) := by
  rw [nextMove_nil h, hp]; exact congrArg _ (setPacing_self hp)

theorem nextMove_every_zero {n : Nat} (h : s.env = []) (hp : s.pacing = .every n 0) : nextMove s = (.tick, s.setPacing (.every n n)) := by
  rw [nextMove_nil h, hp]; rfl

theorem nextMove_every_succ {n left : Nat} (h : s.env = []) (hp : s.pacing = .every n (left + 1)) :
    nextMove s = (.step, s.setPacing (.every n left)) := by
  rw [nextMove_nil h, hp]; rfl

theorem nextMove_free {k : Nat} (h : s.env = []) (hp : s.pacing = .free k) :
    nextMove s = (Config.schedule k, s.setPacing (if Config.schedule k = .quit then .free k else .free (k + 1))) := by
  rw [nextMove_nil h, hp]; rfl

theorem nextMove_quit {rest : List Move} (h : s.env = .quit :: rest) : nextMove s = (.quit, s) := by
  simp only [nextMove, h]

theorem nextMove_cons {m : Move} {rest : List Move} (h : s.env = m :: rest) (hm : m ≠ .quit) :
    nextMove s = (m, s.setEnv rest) := by
  unfold nextMove
  split
  · next h' => rw [h] at h'; cases h'
  · next h' => rw [h] at h'; cases h'; exact absurd rfl hm
  · next h' => rw [h] at h'; cases h'; rfl

/-- Taking the next move changes the line and the pacing alone. -/
theorem nextMove_state (s : State) : ∃ ms p, (nextMove s).2 = (s.setEnv ms).setPacing p := by
  unfold nextMove
  split
  · exact ⟨s.env, _, rfl⟩
  · exact ⟨s.env, s.pacing, rfl⟩
  · next rest _ _ => exact ⟨rest, s.pacing, rfl⟩

/-- A step is the next move, taken. -/
theorem step_eq {m : Move} (h : nextMove s = (m, t)) : step s = takeMove m t := by simp only [step, h]

/-- A load answers the state with the image in memory, or refuses an image above 3584 bytes (rule R253). -/
theorem loadRom_eq_next {image : List Byte} (h : loadRom image s = .next t) :
    image.length ≤ 3584 ∧ t = s.setMem (s.mem.writeBytes 0x200 image) := by
  unfold loadRom at h
  split at h
  · next hl => exact ⟨hl, by injection h with h; exact h.symm⟩
  · cases h

/-! ## The environment is no element of the machine -/

section Environment
variable (e : List Move) (p : Pacing)

theorem sameOutcome_next_iff : SameOutcome (.next s) (.next t) ↔ ∃ e p, t = s.inEnvironment e p :=
  ⟨fun h => ⟨_, _, h.symm⟩, fun ⟨_, _, h⟩ => by subst h; rfl⟩

theorem push_inEnvironment (s : State) (w : Word) :
    (s.inEnvironment e p).push w = (s.push w).map (State.inEnvironment e p) := by
  unfold State.push
  show (if h : s.sp.val < 16 then _ else _) = _
  split <;> rfl

theorem pop_inEnvironment (s : State) :
    (s.inEnvironment e p).pop = s.pop.map fun q => (q.1, q.2.inEnvironment e p) := by
  unfold State.pop
  show (if h : 0 < s.sp.val then _ else _) = _
  split <;> rfl

/-- No instruction looks at what the environment does next. -/
theorem exec_sameOutcome (i : Instr) (s : State) : SameOutcome (exec i s) (exec i (s.inEnvironment e p)) := by
  cases i
  case call nnn =>
    simp only [exec, execCall]
    rw [show (s.inEnvironment e p).pc = s.pc from rfl, push_inEnvironment]
    cases s.push (s.pc + 2) <;> rfl
  case ret =>
    simp only [exec, execRet]
    rw [pop_inEnvironment]
    cases s.pop <;> rfl
  case drw x y n =>
    simp only [exec, execDrw]
    rw [show (s.inEnvironment e p).spriteFits n = s.spriteFits n from rfl]
    split <;> rfl
  case ldB x =>
    simp only [exec, execLdB]
    rw [show (s.inEnvironment e p).addressable 2 = s.addressable 2 from rfl]
    split <;> rfl
  case storeRegs x =>
    simp only [exec, execStoreRegs]
    rw [show (s.inEnvironment e p).addressable x.val = s.addressable x.val from rfl]
    split <;> rfl
  case loadRegs x =>
    simp only [exec, execLoadRegs]
    rw [show (s.inEnvironment e p).addressable x.val = s.addressable x.val from rfl]
    split <;> rfl
  case skp x =>
    simp only [exec, execSkp]
    rw [show (s.inEnvironment e p).keyIndex x = s.keyIndex x from rfl]
    cases s.keyIndex x <;> rfl
  case sknp x =>
    simp only [exec, execSknp]
    rw [show (s.inEnvironment e p).keyIndex x = s.keyIndex x from rfl]
    cases s.keyIndex x <;> rfl
  case ldVxK x =>
    simp only [exec, execLdVxK]
    rw [show (s.inEnvironment e p).pressedKeys = s.pressedKeys from rfl, show (s.inEnvironment e p).draws = s.draws from rfl]
    cases pickKey (Config.keyPick s.draws) s.pressedKeys <;> rfl
  all_goals rfl

/-- No instruction step does. -/
theorem coreStep_sameOutcome (s : State) : SameOutcome (coreStep s) (coreStep (s.inEnvironment e p)) := by
  unfold coreStep
  rw [show (s.inEnvironment e p).status = s.status from rfl]
  cases s.status with
  | halted => rfl
  | running =>
    show SameOutcome (fetchAndRun s) (fetchAndRun (s.inEnvironment e p))
    unfold fetchAndRun
    rw [show (s.inEnvironment e p).fetch = s.fetch from rfl]
    cases s.fetch with
    | none => rfl
    | some w =>
      show SameOutcome (runWord w s) (runWord w (s.inEnvironment e p))
      unfold runWord
      cases decodeWord w with
      | error => rfl
      | ok i => exact exec_sameOutcome e p i s

/-- No move does. -/
theorem takeMove_sameOutcome (m : Move) (s : State) : SameOutcome (takeMove m s) (takeMove m (s.inEnvironment e p)) := by
  cases m
  case step => exact coreStep_sameOutcome e p s
  case tick =>
    show SameOutcome (.next s.tick) (.next (s.inEnvironment e p).tick)
    unfold State.tick
    rw [show (s.inEnvironment e p).status = s.status from rfl]
    cases s.status <;> rfl
  case boot image => unfold takeMove loadRom; dsimp only; split <;> rfl
  all_goals rfl

end Environment

/-- Memory after a run of bytes, in the words of Safety.lean. -/
theorem read_writeBytes_eq_byteAfterStore (base : Nat) (bs : List Byte) (a : Nat) :
    (s.mem.writeBytes base bs).read a = byteAfterStore base bs s a := by
  rw [Memory.read_writeBytes]
  unfold byteAfterStore
  split
  · rw [List.getD_eq_getElem]
  · rfl

end Sys2Proof.Machine
end

