-- ==== Sys2Proof/Tests/Slice0.lean ====
section
/-! SUPPORT. Tests and witnesses. Expected results are those of spec/95_test_vectors.md (the vector is named before each test), of the
patterns of rule R96, or of the cited rule; none was taken from the model. A witness shows a concrete state and operands that meet the
hypotheses of an obligation together, at the ends of their ranges. -/

namespace Sys2Proof.Tests
open Sys2Proof Sys2Proof.Machine

/-! ## Helpers -/

/-- The outcome is a next state with the property. -/
def nextHas (r : Result) (p : State → Bool) : Bool :=
  match r with
  | .next t => p t
  | .fault _ => false
  | .refused _ => false

/-- One step of the machine with the word stored where it fetches. -/
def run (w : Nat) (s : State) (p : State → Bool) : Bool := nextHas (step (s.withFetchWord 16 w)) p

/-- Two general registers, the first two of the vectors. -/
def regs2 (a b : Byte) : State := (State.reset.writeV 0 a).writeV 1 b

/-- `I`, and bytes at `0x300`. -/
def withI (i : Word) (bytes : List Byte) (s : State) : State := (s.setI i).setMem (s.mem.writeBytes 0x300 bytes)

/-- The lit cells (rule R36). -/
def litCells (fb : FrameBuffer) : List Nat := (List.range 2048).filter fb.lit

/-- A halted record. -/
def haltedWith (kind : FaultKind) (word pc : Word) (t : State) : Bool := t.status = .halted kind word pc

/-! ## Well-formedness (rule R101): one ill-formed instruction for each check -/

theorem test_wellFormed_refuses_seReg_n : (Instr.seReg 0 1 1).wellFormed = false := by decide
theorem test_wellFormed_refuses_sneReg_n : (Instr.sneReg 0 1 7).wellFormed = false := by decide
theorem test_wellFormed_refuses_shr_y : (Instr.shr 0 1).wellFormed = false := by decide
theorem test_wellFormed_refuses_shl_y : (Instr.shl 0 15).wellFormed = false := by decide
theorem test_wellFormed_accepts :
    (Instr.seReg 0 1 0).wellFormed = true ∧ (Instr.shl 3 0).wellFormed = true ∧ (Instr.drw 1 2 15).wellFormed = true := by decide

/-! ## Decoding: the word of every constructor, written from the pattern of its row of rule R96 -/

theorem test_decode_categories_0_to_7 :
    decodeWord 0x00E0 = .ok .cls ∧ decodeWord 0x00EE = .ok .ret ∧ decodeWord 0x1ABC = .ok (.jp 0xABC) ∧
    decodeWord 0x2DEF = .ok (.call 0xDEF) ∧ decodeWord 0x3A42 = .ok (.seImm 0xA 0x42) ∧
    decodeWord 0x4B43 = .ok (.sneImm 0xB 0x43) ∧ decodeWord 0x5AB0 = .ok (.seReg 0xA 0xB 0) ∧
    decodeWord 0x6C44 = .ok (.ldImm 0xC 0x44) ∧ decodeWord 0x7D45 = .ok (.addImm 0xD 0x45) := by decide

theorem test_decode_category_8 :
    decodeWord 0x8AB0 = .ok (.ldReg 0xA 0xB) ∧ decodeWord 0x8AB1 = .ok (.orReg 0xA 0xB) ∧
    decodeWord 0x8AB2 = .ok (.andReg 0xA 0xB) ∧ decodeWord 0x8AB3 = .ok (.xorReg 0xA 0xB) ∧
    decodeWord 0x8AB4 = .ok (.addReg 0xA 0xB) ∧ decodeWord 0x8AB5 = .ok (.subReg 0xA 0xB) ∧
    decodeWord 0x8A06 = .ok (.shr 0xA 0) ∧ decodeWord 0x8AB7 = .ok (.subn 0xA 0xB) ∧
    decodeWord 0x8A0E = .ok (.shl 0xA 0) := by decide

theorem test_decode_categories_9_to_E :
    decodeWord 0x9AB0 = .ok (.sneReg 0xA 0xB 0) ∧ decodeWord 0xA123 = .ok (.ldI 0x123) ∧
    decodeWord 0xB456 = .ok (.jpV0 0x456) ∧ decodeWord 0xC78F = .ok (.rnd 7 0x8F) ∧
    decodeWord 0xDABC = .ok (.drw 0xA 0xB 0xC) ∧ decodeWord 0xE59E = .ok (.skp 5) ∧
    decodeWord 0xE6A1 = .ok (.sknp 6) := by decide

theorem test_decode_category_F :
    decodeWord 0xF107 = .ok (.ldVxDT 1) ∧ decodeWord 0xF20A = .ok (.ldVxK 2) ∧ decodeWord 0xF315 = .ok (.ldDTVx 3) ∧
    decodeWord 0xF418 = .ok (.ldSTVx 4) ∧ decodeWord 0xF51E = .ok (.addI 5) ∧ decodeWord 0xF629 = .ok (.ldF 6) ∧
    decodeWord 0xF733 = .ok (.ldB 7) ∧ decodeWord 0xF855 = .ok (.storeRegs 8) ∧ decodeWord 0xF965 = .ok (.loadRegs 9) := by decide

/-- X-2 to X-5: illegal words. -/
theorem test_decode_illegal :
    decodeWord 0x00E1 = .error .category0 ∧ decodeWord 0x01E0 = .error .category0 ∧ decodeWord 0x00FE = .error .category0 ∧
    decodeWord 0x801F = .error .category8 ∧ decodeWord 0xE0A0 = .error .categoryE ∧ decodeWord 0xE19D = .error .categoryE ∧
    decodeWord 0xF075 = .error .categoryF ∧ decodeWord 0xF085 = .error .categoryF := by decide

/-- F-21 and rule R101: words whose ignored bits are set. -/
theorem test_decode_ignored_bits :
    decodeWord 0x5011 = .ok (.seReg 0 1 1) ∧ decodeWord 0x9017 = .ok (.sneReg 0 1 7) ∧
    decodeWord 0x8016 = .ok (.shr 0 1) ∧ decodeWord 0x801E = .ok (.shl 0 1) := by decide

/-- Too few bytes are no instruction; what follows two bytes is left over (rule R90). -/
theorem test_decode_bytes :
    decodeBytes [0x12] = .error .truncated ∧ decodeBytes [0xD1, 0x2F, 0x77] = .ok (.drw 1 2 15, [0x77]) := by decide

/-- Words written from rule R96 are what the encoder answers. -/
theorem test_encode :
    encode (.call 0x20A) = 0x220A ∧ encode (.subn 0 1) = 0x8017 ∧ encode (.drw 1 2 5) = 0xD125 ∧
    encode (.loadRegs 2) = 0xF265 ∧ encodeBytes (.jp 0x234) = [0x12, 0x34] := by decide

/-- No two rows of rule R96 match a common word. -/
theorem test_opcode_rows_disjoint :
    opcodeTable.Pairwise (fun a b => a.bits &&& (a.mask &&& b.mask) ≠ b.bits &&& (a.mask &&& b.mask)) := by decide +kernel

theorem test_opcode_table_size : opcodeTable.length = 34 := by decide

/-- The host's numbering: bit 0 of the table is bit 0 of the word; bits above `nbits` are 0. -/
theorem test_decodeTableWord :
    decodeTableWord 16 0x8AB4 = some (.addReg 0xA 0xB) ∧ decodeTableWord 16 0x0000 = none ∧
    decodeTableWord 8 0x12EE = some .ret := by decide

/-- The stored word is what the next step fetches, from reset and from a program counter beyond memory. -/
theorem test_withFetchWord :
    (State.reset.withFetchWord 16 0x1234).fetch = some 0x1234 ∧ (State.reset.withFetchWord 16 0x1234).pc = 0x200 ∧
    ({ State.reset with pc := 0xFFF } : State).withFetchWord 16 0x1234 = State.reset.withFetchWord 16 0x1234 := by decide

/-! ## Control transfer -/

/-- F-1. -/
theorem test_jp : run 0x1234 State.reset (fun t => t.pc = 0x234) = true := by decide
/-- F-3. -/
theorem test_jp_odd : run 0x1201 State.reset (fun t => t.pc = 0x201) = true := by decide
/-- F-5. -/
theorem test_call :
    run 0x220A { State.reset with pc := 0x204 } (fun t => t.stack[0] = 0x206 && t.sp = 1 && t.pc = 0x20A) = true := by decide
/-- F-7. -/
theorem test_call_overflow :
    run 0x2300 { State.reset with sp := 16 } (fun t => haltedWith .stackOverflow 0x2300 0x200 t && t.sp = 16 && t.pc = 0x200) = true := by
  decide
/-- F-9b. -/
theorem test_ret :
    run 0x00EE { State.reset with sp := 16, stack := State.reset.stack.set 15 0xFFE } (fun t => t.sp = 15 && t.pc = 0xFFE) = true := by
  decide
/-- F-9. -/
theorem test_ret_underflow : run 0x00EE State.reset (haltedWith .stackUnderflow 0x00EE 0x200) = true := by decide
/-- F-12. -/
theorem test_seImm : run 0x3FFF (State.reset.writeV 15 0xFF) (fun t => t.pc = 0x204) = true := by decide
/-- F-11. -/
theorem test_seImm_not : run 0x3100 { regs2 0 1 with pc := 0x208 } (fun t => t.pc = 0x20A) = true := by decide
/-- F-13. -/
theorem test_sneImm : run 0x4211 { State.reset.writeV 2 0x10 with pc := 0x300 } (fun t => t.pc = 0x304) = true := by decide
/-- F-14. -/
theorem test_sneImm_not : run 0x4210 { State.reset.writeV 2 0x10 with pc := 0x300 } (fun t => t.pc = 0x302) = true := by decide
/-- F-21: the last nibble is ignored. -/
theorem test_seReg : run 0x5011 State.reset (fun t => t.pc = 0x204) = true := by decide
/-- F-16. -/
theorem test_seReg_not : run 0x5010 (regs2 0x7F 0x7E) (fun t => t.pc = 0x202) = true := by decide
/-- F-18. -/
theorem test_sneReg : run 0x9010 (regs2 1 2) (fun t => t.pc = 0x204) = true := by decide
/-- F-20. -/
theorem test_sneReg_not : run 0x9440 (State.reset.writeV 4 7) (fun t => t.pc = 0x202) = true := by decide
/-- F-23. -/
theorem test_jpV0 : run 0xBFFF (State.reset.writeV 0 0xFF) (fun t => t.pc = 0x10FE) = true := by decide
/-- F-24: `V0` is used, not `V2`. -/
theorem test_jpV0_not_Vx : run 0xB2FF ((State.reset.writeV 0 2).writeV 2 0x80) (fun t => t.pc = 0x301) = true := by decide

/-! ## Register arithmetic -/

/-- A-2. -/
theorem test_ldImm : run 0x6FAB State.reset (fun t => t.readV 15 = 0xAB && t.pc = 0x202) = true := by decide
/-- A-4: no carry flag. -/
theorem test_addImm : run 0x7102 ((regs2 0 0xFF).writeV 15 7) (fun t => t.readV 1 = 1 && t.readV 15 = 7) = true := by decide
/-- A-7. -/
theorem test_ldReg : run 0x83F0 ((State.reset.writeV 15 1).writeV 3 9) (fun t => t.readV 3 = 1) = true := by decide
/-- A-8. -/
theorem test_orReg : run 0x8011 ((regs2 0xF0 0x0F).writeV 15 9) (fun t => t.readV 0 = 0xFF && t.readV 15 = 9) = true := by decide
/-- A-9. -/
theorem test_andReg : run 0x8012 ((regs2 0xF0 0x3C).writeV 15 9) (fun t => t.readV 0 = 0x30 && t.readV 15 = 9) = true := by decide
/-- A-10. -/
theorem test_xorReg : run 0x8013 ((regs2 0xF0 0x3C).writeV 15 9) (fun t => t.readV 0 = 0xCC && t.readV 15 = 9) = true := by decide
/-- S1. -/
theorem test_addReg : run 0x8014 (regs2 0xA5 0xA5) (fun t => t.readV 0 = 0x4A && t.readV 15 = 1 && t.pc = 0x202) = true := by decide
/-- V-3: the addend is the old `VF`. -/
theorem test_addReg_VF : run 0x81F4 ((regs2 0 2).writeV 15 0xFF) (fun t => t.readV 1 = 1 && t.readV 15 = 1) = true := by decide
/-- S3. -/
theorem test_subReg : run 0x8015 (regs2 0x10 0x15) (fun t => t.readV 0 = 0xFB && t.readV 15 = 0) = true := by decide
/-- A-16: equal operands do not borrow. -/
theorem test_subReg_equal : run 0x8015 (regs2 0x15 0x15) (fun t => t.readV 0 = 0 && t.readV 15 = 1) = true := by decide
/-- A-26. -/
theorem test_shr : run 0x8016 (regs2 0xFF 0x55) (fun t => t.readV 0 = 0x7F && t.readV 15 = 1 && t.readV 1 = 0x55) = true := by decide
/-- V-9. -/
theorem test_shr_VF : run 0x8F16 (State.reset.writeV 15 3) (fun t => t.readV 15 = 1) = true := by decide
/-- A-20. -/
theorem test_subn : run 0x8017 (regs2 0x10 0x15) (fun t => t.readV 0 = 5 && t.readV 15 = 1 && t.readV 1 = 0x15) = true := by decide
/-- V-7: the result overwrites the flag. -/
theorem test_subn_VF : run 0x8F17 ((regs2 0 3).writeV 15 5) (fun t => t.readV 15 = 0xFE) = true := by decide
/-- A-31. -/
theorem test_shl : run 0x801E (regs2 0xFF 0x55) (fun t => t.readV 0 = 0xFE && t.readV 15 = 1 && t.readV 1 = 0x55) = true := by decide
/-- V-10. -/
theorem test_shl_VF : run 0x8F1E (State.reset.writeV 15 0x81) (fun t => t.readV 15 = 2) = true := by decide
/-- A-35: mask 0 gives 0 whatever is drawn. -/
theorem test_rnd_mask_zero (s : State) : ∃ t, exec (.rnd 1 0) s = .next t ∧ t.readV 1 = 0 :=
  ⟨_, rfl, by simp⟩
/-- A-36: the whole byte drawn, which is free. -/
theorem test_rnd_all : run 0xC1FF State.reset (fun t => t.pc = 0x202 && t.draws = 1) = true := by decide

/-! ## Index register and memory -/

/-- M-2. -/
theorem test_ldI : run 0xAFFF (State.reset.setI 5) (fun t => t.i = 0xFFF && t.pc = 0x202) = true := by decide
/-- M-6: the flag is from the true sum. -/
theorem test_addI : run 0xF01E ((State.reset.setI 0xFFFF).writeV 0 1) (fun t => t.i = 0 && t.readV 15 = 1) = true := by decide
/-- M-3. -/
theorem test_addI_no_flag : run 0xF01E (((State.reset.setI 0xFFE).writeV 0 1).writeV 15 1) (fun t => t.i = 0xFFF && t.readV 15 = 0) = true := by
  decide
/-- M-12: no nibble mask. -/
theorem test_ldF : run 0xF029 (State.reset.writeV 0 0xFF) (fun t => t.i = 0x4FB) = true := by decide
/-- S5. -/
theorem test_ldB :
    run 0xF033 ((State.reset.setI 0x500).writeV 0 0xF3)
      (fun t => t.mem.read 0x500 = 2 && t.mem.read 0x501 = 4 && t.mem.read 0x502 = 3 && t.pc = 0x202) = true := by decide
/-- M-18. -/
theorem test_ldB_beyond :
    run 0xF033 ((State.reset.setI 0xFFE).writeV 0 0x7B)
      (fun t => haltedWith .memoryOutOfBounds 0xF033 0x200 t && t.mem.read 0xFFE = 0 && t.mem.read 0xFFF = 0) = true := by decide
/-- M-19. -/
theorem test_storeRegs :
    run 0xF155 ((withI 0x300 [] (regs2 0x11 0x22)).writeV 2 0x33)
      (fun t => t.mem.read 0x300 = 0x11 && t.mem.read 0x301 = 0x22 && t.mem.read 0x302 = 0 && t.i = 0x300) = true := by decide
/-- M-23: no partial store. -/
theorem test_storeRegs_beyond :
    run 0xF155 ((regs2 0x11 0x22).setI 0xFFF) (fun t => haltedWith .memoryOutOfBounds 0xF155 0x200 t && t.mem.read 0xFFF = 0) = true := by
  decide
/-- M-24. -/
theorem test_loadRegs :
    run 0xF265 (withI 0x300 [2, 4, 3, 9] (State.reset.writeV 3 0x77))
      (fun t => t.readV 0 = 2 && t.readV 1 = 4 && t.readV 2 = 3 && t.readV 3 = 0x77 && t.i = 0x300) = true := by decide
/-- M-27: the font, and `I = 0`. -/
theorem test_loadRegs_font :
    run 0xFF65 State.reset
      (fun t => t.v.toList = [0xF0, 0x90, 0x90, 0x90, 0xF0, 0x20, 0x60, 0x20] ++ [0x20, 0x70, 0xF0, 0x10, 0xF0, 0x80, 0xF0, 0xF0]) = true := by
  decide

/-- The list of cells stays canonical: the bytes of a store are listed in rising order, and storing what an address reads as at reset
takes its entry off (rules R60, R65). -/
theorem test_memory_canonical :
    (((State.reset.mem.write 0x301 7).write 0x300 5).write 0x301 0).cells = [(0x300, 5)] ∧
    (State.reset.mem.write 0 0xF0).cells = [] ∧ (State.reset.mem.write 0x1FF 1).wf := by decide

/-! ## Display -/

/-- D-4. -/
theorem test_cls :
    run 0x00E0 { State.reset.writeV 15 9 with fb := ((FrameBuffer.clear.flip 0).flip 5).flip 2047 }
      (fun t => t.fb.toList = List.replicate 32 0 && t.drawFlag && t.readV 15 = 9) = true := by decide
/-- D-5. -/
theorem test_cls_sets_draw_flag : run 0x00E0 State.reset (fun t => t.drawFlag && t.pc = 0x202) = true := by decide
/-- D-7: each axis wraps on its own. -/
theorem test_drw_wraps :
    run 0xD012 ((withI 0x300 [0xFF, 0x81] State.reset |>.writeV 0 60).writeV 1 31)
      (fun t => litCells t.fb = [3, 60, 1984, 1985, 1986, 1987, 2044, 2045, 2046, 2047] && t.readV 15 = 0) = true := by decide +kernel
/-- D-9: a collision turns a cell off. -/
theorem test_drw_collision :
    run 0xD011 { withI 0x300 [0xC0] State.reset with fb := FrameBuffer.clear.flip 1 }
      (fun t => litCells t.fb = [0] && t.readV 15 = 1 && t.drawFlag) = true := by decide +kernel

/-! ## Keypad and timers -/

/-- K-1. -/
theorem test_skp : run 0xE09E ((State.reset.writeV 0 7).setKey 7 true) (fun t => t.pc = 0x204) = true := by decide
/-- K-6. -/
theorem test_skp_beyond : run 0xE09E (State.reset.writeV 0 0x10) (haltedWith .keyIndexOutOfRange 0xE09E 0x200) = true := by decide
/-- K-3. -/
theorem test_sknp : run 0xE0A1 ((State.reset.writeV 0 7).setKey 7 true) (fun t => t.pc = 0x202) = true := by decide
/-- K-4. -/
theorem test_sknp_up : run 0xE0A1 (State.reset.writeV 0 7) (fun t => t.pc = 0x204) = true := by decide
/-- K-8. -/
theorem test_ldVxK : run 0xF30A (State.reset.setKey 7 true) (fun t => t.readV 3 = 7 && t.pc = 0x202) = true := by decide
/-- K-9: nothing changes. -/
theorem test_ldVxK_waits : run 0xF30A State.reset (fun t => t = State.reset.withFetchWord 16 0xF30A) = true := by decide
/-- K-11: either key, whatever the free value. -/
theorem test_ldVxK_two_keys (choice : Nat) :
    ((State.reset.setKey 2 true).setKey 9 true).pressedKeys = [2, 9] ∧
    (pickKey choice [2, 9] = some 2 ∨ pickKey choice [2, 9] = some 9) := by
  refine ⟨by decide, ?_⟩
  rcases Nat.mod_two_eq_zero_or_one choice with h | h <;> simp [pickKey, h]
/-- T-1. -/
theorem test_ldVxDT : run 0xF107 (State.reset.setDT 0x2A) (fun t => t.readV 1 = 0x2A && t.dt = 0x2A && t.pc = 0x202) = true := by decide
/-- T-3. -/
theorem test_ldDTVx : run 0xF015 (State.reset.writeV 0 0x3C) (fun t => t.dt = 60 && t.st = 0 && t.pc = 0x202) = true := by decide
/-- T-6. -/
theorem test_ldSTVx : run 0xFF18 (State.reset.writeV 15 0xFF) (fun t => t.st = 255 && t.dt = 0) = true := by decide

/-! ## Faults, the tick and the host -/

/-- X-1: the step after reset, with nothing placed. -/
theorem test_step_reset : nextHas (step State.reset) (haltedWith .illegalInstruction 0x0000 0x200) = true := by decide
/-- X-4: decode comes before the key-index test. -/
theorem test_decode_before_key_index :
    run 0xE09F (State.reset.writeV 0 0x10) (haltedWith .illegalInstruction 0xE09F 0x200) = true := by decide
/-- F-4 and F-23, second step. -/
theorem test_fetch_beyond :
    nextHas (step { State.reset with pc := 0xFFF }) (haltedWith .fetchOutOfBounds 0x0000 0xFFF) = true ∧
    nextHas (step { State.reset with pc := 0x10FE }) (haltedWith .fetchOutOfBounds 0x0000 0x10FE) = true := by decide
/-- X-7, second step: `0xFFE` is the last address a fetch can use. -/
theorem test_fetch_last : nextHas (step { State.reset with pc := 0xFFE }) (haltedWith .illegalInstruction 0x0000 0xFFE) = true := by decide
/-- F-26, second step: an instruction at an odd address. -/
theorem test_fetch_odd :
    nextHas (step { State.reset.setMem (State.reset.mem.writeBytes 0x200 [0x12, 0x03, 0x00, 0x6A, 0x77]) with pc := 0x203 })
      (fun t => t.readV 10 = 0x77 && t.pc = 0x205) = true := by decide
/-- T-8: no wrap to 255. -/
theorem test_tick : ((State.reset.setDT 1).setST 1).tick = State.reset ∧ State.reset.tick = State.reset := by decide
/-- T-9. -/
theorem test_tick_halted :
    ({ State.reset with dt := 5, status := .halted .stackUnderflow 0x00EE 0x200 } : State).tick.dt = 5 := by decide
/-- R254: a boot from a halted state puts the image at `0x200` and runs. -/
theorem test_boot :
    nextHas (step { State.reset with status := .halted .stackUnderflow 0x00EE 0x200, env := [.boot [0x60, 0x01], .step] })
      (fun t => t.status = .running && t.fetch = some 0x6001 && t.mem.read 0x202 = 0 && t.env = [.step]) = true := by decide
/-- R226, R213 (log entry 17): the host clears the draw flag and writes a key while the machine is halted. -/
theorem test_host_while_halted :
    nextHas (step { State.reset with drawFlag := true, status := .halted .stackUnderflow 0x00EE 0x200, env := [.presentDone] })
      (fun t => !t.drawFlag && haltedWith .stackUnderflow 0x00EE 0x200 t) = true ∧
    nextHas (step { State.reset with status := .halted .stackUnderflow 0x00EE 0x200, env := [.setKey 7 true] })
      (fun t => t.keyDown 7 && haltedWith .stackUnderflow 0x00EE 0x200 t) = true := by decide
/-- R229: the instance of one tick after every step (here of the self-jump). -/
theorem test_pacing_every :
    nextHas (runSteps 2 (((State.reset.setDT 9).withFetchWord 16 0x1200).setPacing (.every 1 1)))
      (fun t => t.dt = 8 && t.pc = 0x200 && t.pacing = .every 1 1) = true := by decide
/-- The stored word is run as an instruction step whatever the pacing would give. -/
theorem test_withFetchWord_paced :
    nextHas (step ((State.reset.setPacing (.free 0)).withFetchWord 16 0x6105)) (fun t => t.readV 1 = 5 && t.env = []) = true ∧
    nextHas (step ((State.reset.setPacing (.every 5 0)).withFetchWord 16 0x6105)) (fun t => t.readV 1 = 5) = true := by decide
/-- R256, R257. -/
theorem test_presentDone_quit :
    nextHas (step { State.reset with drawFlag := true, env := [.presentDone, .quit] }) (fun t => !t.drawFlag && t.env = [.quit]) = true ∧
    nextHas (step { State.reset with env := [.quit, .step] }) (fun t => t = { State.reset with env := [.quit, .step] }) = true := by decide

/-! ## Witnesses: encoding -/

theorem witness_EncodeInvertsDecode : decodeWord 0xDABC = .ok (.drw 0xA 0xB 0xC) := by decide
theorem witness_DecodeAgreesWithMatchAndMask : (⟨23, 0xD000, 0xF000⟩ : OpcodeRow) ∈ opcodeTable := by decide
theorem witness_IgnoredBitsDoNotMatter :
    (0x5AB7 : Word).toNat / 4096 = 0x5 ∧ (0x9AB7 : Word).toNat / 4096 = 0x9 ∧
    ((0x8AF6 : Word).toNat / 4096 = 0x8 ∧ (0x8AF6 : Word).toNat % 16 = 0x6) ∧
    ((0x8AFE : Word).toNat / 4096 = 0x8 ∧ (0x8AFE : Word).toNat % 16 = 0xE) := by decide

/-! ## Witnesses: the step -/

/-- Both ends of the range of a fetch: `0xFFE` succeeds, `0xFFF` does not. -/
theorem witness_FetchCombinesTwoBytesBigEndian :
    ({ State.reset with pc := 0xFFE } : State).pc.toNat + 1 ≤ 0xFFF ∧
    0xFFF < ({ State.reset with pc := 0xFFF } : State).pc.toNat + 1 ∧ ({ State.reset with pc := 0xFFF } : State).isRunning :=
  ⟨by decide, by decide, rfl⟩

/-- A state about to run `8AB4`, and the same with a step and a tick lined up. -/
def aboutToAdd : State := State.reset.withFetchWord 16 0x8AB4
def aboutToAddLinedUp : State := { aboutToAdd with env := [.step, .tick] }

theorem witness_StepRunsTheDecodedInstruction :
    aboutToAdd.isRunning ∧ aboutToAdd.pc.toNat + 1 ≤ 0xFFF ∧
    decodeBytes [aboutToAdd.mem.read aboutToAdd.pc.toNat, aboutToAdd.mem.read (aboutToAdd.pc.toNat + 1)] = .ok (.addReg 0xA 0xB, []) ∧
    aboutToAdd.env = [] :=
  ⟨rfl, by decide, by decide, rfl⟩
theorem witness_StepRunsTheDecodedInstruction_linedUp :
    aboutToAddLinedUp.isRunning ∧ aboutToAddLinedUp.pc.toNat + 1 ≤ 0xFFF ∧
    decodeBytes [aboutToAddLinedUp.mem.read aboutToAddLinedUp.pc.toNat, aboutToAddLinedUp.mem.read (aboutToAddLinedUp.pc.toNat + 1)]
      = .ok (.addReg 0xA 0xB, []) ∧
    aboutToAddLinedUp.env = .step :: [.tick] :=
  ⟨rfl, by decide, by decide, rfl⟩
/-- `aboutToAdd` with one step to go before a tick. -/
theorem witness_StepRunsTheDecodedInstruction_paced :
    aboutToAdd.pacing = .steps ∧ ({ aboutToAdd with pacing := .every 3 1 } : State).isRunning ∧
    ({ aboutToAdd with pacing := .every 3 1 } : State).env = [] ∧
    ({ aboutToAdd with pacing := .every 3 1 } : State).pacing = .every 3 (0 + 1) := ⟨rfl, rfl, rfl, rfl⟩
theorem witness_EnvironmentMovesAreWholeTransitions :
    (Move.reset ≠ .quit ∧ ({ State.reset with env := [.reset] } : State).env = .reset :: []) ∧
    ({ State.reset with env := [.quit] } : State).env = .quit :: [] ∧
    ({ State.reset with env := [.step] } : State).env = .step :: [] ∧
    ({ State.reset with env := [.tick, .step] } : State).env = .tick :: [.step] ∧
    ({ State.reset with env := [.setKey 15 true] } : State).env = .setKey 15 true :: [] ∧
    ({ State.reset with env := [.presentDone] } : State).env = .presentDone :: [] ∧
    ({ State.reset with env := [.boot [0x12, 0x00]] } : State).env = .boot [0x12, 0x00] :: [] :=
  ⟨⟨by decide, rfl⟩, rfl, rfl, rfl, rfl, rfl, rfl⟩
theorem witness_EnvironmentMovesAreWholeTransitions_paced :
    (State.reset.env = [] ∧ State.reset.pacing = .steps) ∧
    ((State.reset.setPacing (.every 3 1)).env = [] ∧ (State.reset.setPacing (.every 3 1)).pacing = .every 3 (0 + 1)) ∧
    ((State.reset.setPacing (.every 3 0)).env = [] ∧ (State.reset.setPacing (.every 3 0)).pacing = .every 3 0) ∧
    ((State.reset.setPacing (.free 7)).env = [] ∧ (State.reset.setPacing (.free 7)).pacing = .free 7) :=
  ⟨⟨rfl, rfl⟩, ⟨rfl, rfl⟩, ⟨rfl, rfl⟩, ⟨rfl, rfl⟩⟩
theorem witness_FreePacingFollowsTheSchedule :
    (State.reset.setPacing (.free 0)).env = [] ∧ (State.reset.setPacing (.free 0)).pacing = .free 0 := ⟨rfl, rfl⟩
theorem witness_TickComesAfterEveryNSteps :
    ((State.reset.setPacing (.every 9 9)).env = [] ∧ (State.reset.setPacing (.every 9 9)).pacing = .every 9 9) ∧
    ((State.reset.setPacing (.every 0 0)).env = [] ∧ (State.reset.setPacing (.every 0 0)).pacing = .every 0 0) :=
  ⟨⟨rfl, rfl⟩, ⟨rfl, rfl⟩⟩

/-- An interleaving of steps and ticks in turn, and a program that idles with both timers counting. -/
def inTurn (j : Nat) : Move := if j % 2 = 0 then .step else .tick
def idling : State := ((State.reset.setDT 255).setST 1).withFetchWord 16 0x1200

theorem witness_FairTicksRunTimersDown :
    Fair inTurn ∧ (∀ j, (inTurn j).keepsRunning = true) ∧ idling.isRunning ∧ idling.atSelfJump := by
  refine ⟨fun k => ⟨⟨2 * k, by omega, ?_⟩, ⟨2 * k + 1, by omega, ?_⟩⟩, fun j => ?_, rfl, 0x200, by decide, by decide⟩
  · simp [inTurn]
  · simp only [inTurn]; rw [if_neg (by omega)]
  · unfold inTurn; split <;> rfl
theorem witness_IllegalWordHalts :
    (State.reset.withFetchWord 16 0xE0A0).isRunning ∧ (State.reset.withFetchWord 16 0xE0A0).fetch = some 0xE0A0 ∧
    decodeWord 0xE0A0 = .error .categoryE ∧ State.reset.isRunning ∧ State.reset.fetch = some 0x0000 :=
  ⟨rfl, by decide, by decide, rfl, by decide⟩

/-- A return with nothing to return to, at the last address a fetch can use. -/
def aboutToUnderflow : State := { State.reset with pc := 0xFFE }.withFetchWord 16 0x00EE
def underflowed : State := { aboutToUnderflow with status := .halted .stackUnderflow 0x00EE 0xFFE }

theorem witness_FaultsArePreciseAndRecorded :
    aboutToUnderflow.isRunning ∧ coreStep aboutToUnderflow = .next underflowed ∧ ¬ underflowed.isRunning :=
  ⟨rfl, rfl, fun h => by cases h⟩
theorem witness_FaultsArePreciseAndRecorded_fetch :
    ({ State.reset with pc := 0xFFF } : State).isRunning ∧
    coreStep { State.reset with pc := 0xFFF }
      = .next { State.reset with pc := 0xFFF, status := .halted .fetchOutOfBounds 0x0000 0xFFF } ∧
    ¬ ({ State.reset with pc := 0xFFF, status := .halted .fetchOutOfBounds 0x0000 0xFFF } : State).isRunning :=
  ⟨rfl, rfl, fun h => by cases h⟩

/-- Every fault of the table, and its condition just missed, in running states. -/
theorem witness_FaultsAreExactlyTheTable :
    State.reset.isRunning ∧ ({ State.reset with sp := 16 } : State).isRunning ∧ (State.reset.setI 0xFFF).isRunning ∧
    (State.reset.writeV 0 0x10).isRunning :=
  ⟨rfl, rfl, rfl, rfl⟩
theorem witness_ProgramCounterFollowsTheTable_faults :
    faultOf (.call 0x300) { State.reset with sp := 16 } ≠ none ∧ faultOf .ret State.reset ≠ none ∧
    faultOf (.drw 0 0 2) (State.reset.setI 0xFFF) ≠ none ∧ faultOf (.ldB 0) (State.reset.setI 0xFFE) ≠ none ∧
    faultOf (.storeRegs 1) (State.reset.setI 0xFFF) ≠ none ∧ faultOf (.loadRegs 1) (State.reset.setI 0xFFF) ≠ none ∧
    faultOf (.skp 0) (State.reset.writeV 0 0x10) ≠ none ∧ faultOf (.sknp 0) (State.reset.writeV 0 0x10) ≠ none := by decide
theorem witness_ProgramCounterFollowsTheTable_runs :
    faultOf (.call 0x300) { State.reset with sp := 15 } = none ∧ faultOf .ret { State.reset with sp := 1 } = none ∧
    faultOf (.drw 0 0 1) (State.reset.setI 0xFFF) = none ∧ faultOf (.ldB 0) (State.reset.setI 0xFFD) = none ∧
    faultOf (.storeRegs 0) (State.reset.setI 0xFFF) = none ∧ faultOf (.loadRegs 0) (State.reset.setI 0xFFF) = none ∧
    faultOf (.skp 0) (State.reset.writeV 0 0xF) = none ∧ faultOf (.jp 0) State.reset = none := by decide
/-- Every line of the table of rule R28: a target, a skip taken, a hold, and none of these. -/
theorem witness_PcRule :
    absoluteTarget (.jpV0 0xFFF) (State.reset.writeV 0 0xFF) = some 0x10FE ∧
    (absoluteTarget (.seImm 0 0) State.reset = none ∧ skipTaken (.seImm 0 0) State.reset) ∧
    (absoluteTarget (.ldVxK 0) State.reset = none ∧ waitsForKey (.ldVxK 0) State.reset) ∧
    (absoluteTarget .cls State.reset = none ∧ ¬ skipTaken .cls State.reset ∧ ¬ waitsForKey .cls State.reset) := by
  refine ⟨by decide, ⟨rfl, by unfold skipTaken; decide⟩, ⟨rfl, by unfold waitsForKey; decide⟩, rfl, fun h => h, fun h => h⟩
theorem witness_HaltedUntilReset :
    underflowed.status = .halted .stackUnderflow 0x00EE 0xFFE ∧
    takeMove .reset underflowed = .next State.reset ∧ State.reset.isRunning :=
  ⟨rfl, rfl, rfl⟩

/-! ## Witnesses: reset, the host, the tick, invariants -/

/-- The ends of the font parameter and of the zeroed range. -/
theorem witness_ResetSetsEveryElement :
    (5 ≤ 5 ∧ 5 < 80) ∧ (5 ≤ 79 ∧ 79 < 80) ∧ (80 ≤ 4095 ∧ 4095 < 4096) ∧
    State.reset.mem.read 5 = 0x20 ∧ State.reset.mem.read 79 = 0x80 ∧ State.reset.mem.read 80 = 0 := by decide
/-- The largest image that is loaded, and one byte more. -/
theorem witness_LoadRomCopiesTheImage :
    (List.replicate 3584 (0x12 : Byte)).length ≤ 3584 ∧ 3583 < (List.replicate 3584 (0x12 : Byte)).length ∧
    3584 < (List.replicate 3585 (0x12 : Byte)).length := by
  refine ⟨?_, ?_, ?_⟩ <;> rw [List.length_replicate] <;> omega
theorem witness_BootStartsTheImage :
    ([] : List Byte).length ≤ 3584 ∧ (List.replicate 3584 (0x12 : Byte)).length ≤ 3584 :=
  ⟨Nat.zero_le _, by rw [List.length_replicate]⟩
theorem witness_SetKeyWritesOneSlot : (14 : Nat) ≠ (15 : Fin 16).val := by decide
theorem witness_TickCountsBothTimersDown : ((State.reset.setDT 255).setST 1).isRunning ∧ ¬ underflowed.isRunning :=
  ⟨rfl, fun h => by cases h⟩

theorem inv_reset : Inv State.reset :=
  ⟨State.reset_mem_wf, by decide, fun k _ h => absurd h (by simp [State.reset, State.resetWith]), fun _ _ _ h => by cases h⟩
theorem witness_StepKeepsInvariant :
    Inv State.reset ∧ step State.reset = .next { State.reset with status := .halted .illegalInstruction 0x0000 0x200 } :=
  ⟨inv_reset, rfl⟩
/-- The bounds of the invariant are reached: `PC` at `0x10FE` and a live return address of `0x1000`. -/
theorem witness_StepKeepsInvariant_bounds :
    Inv { State.reset with pc := 0x10FE, sp := 1, stack := State.reset.stack.set 0 0x1000 } :=
  ⟨State.reset_mem_wf, by decide, fun k hk h => by
    have : k = 0 := by simp at h; exact h
    subst this; exact Nat.le_refl _, fun _ _ _ h => by cases h⟩

/-- An instruction that each whole-machine rule lets write, and one it does not. -/
theorem witness_InstructionsNeverCountTimers :
    exec (.ldDTVx 0) (State.reset.writeV 0 9) = .next { State.reset.writeV 0 9 with dt := 9, pc := 0x202 } ∧
    exec (.ldSTVx 0) (State.reset.writeV 0 9) = .next { State.reset.writeV 0 9 with st := 9, pc := 0x202 } := ⟨rfl, rfl⟩
theorem witness_OnlyTheListedInstructionsWrite :
    exec (.jp 0x300) State.reset = .next { State.reset with pc := 0x300 } ∧
    exec (.ldI 0x300) State.reset = .next { State.reset with i := 0x300, pc := 0x202 } := ⟨rfl, rfl⟩
theorem witness_RegistersChangeOnlyWhereListed :
    exec (.ldImm 3 7) State.reset = .next { State.reset.writeV 3 7 with pc := 0x202 } := rfl
theorem witness_SoundTimerAndDrawFlagAreNeverRead :
    exec .cls State.reset = .next { State.reset with drawFlag := true, pc := 0x202 } ∧ faultOf (.drw 0 0 5) State.reset = none ∧
    faultOf (.drw 0 0 2) (State.reset.setI 0xFFF) ≠ none := ⟨rfl, by decide, by decide⟩

/-! ## Witnesses: control transfer -/

theorem witness_SelfJumpChangesNothing :
    (State.reset.withFetchWord 16 0x1200).isRunning ∧ (State.reset.withFetchWord 16 0x1200).atSelfJump :=
  ⟨rfl, 0x200, by decide, by decide⟩
theorem witness_CallPushesReturnAddress :
    ({ State.reset with sp := 15 } : State).sp.val < 16 ∧ ({ State.reset with sp := 16 } : State).sp.val = 16 := by decide
theorem witness_ReturnPopsReturnAddress :
    0 < ({ State.reset with sp := 1 } : State).sp.val ∧ 0 + 1 = ({ State.reset with sp := 1 } : State).sp.val ∧
    15 + 1 = ({ State.reset with sp := 16 } : State).sp.val ∧ State.reset.sp.val = 0 := by decide
theorem witness_PushThenPopRoundTrip : State.reset.sp.val < 16 ∧ ({ State.reset with sp := 15 } : State).sp.val < 16 := by decide
theorem witness_CallThenReturnResumes : ({ State.reset with sp := 15 } : State).sp.val < 16 := by decide

/-! ## Witnesses: arithmetic (the register that is not `VF`), index and memory -/

theorem witness_flag_destination : (0xE : Reg) ≠ VF ∧ (0 : Reg) ≠ VF ∧ (15 : Reg) = VF := by decide
theorem witness_StoreDecimalDigits :
    (State.reset.setI 0xFFD).i.toNat + 2 ≤ 0xFFF ∧ 0xFFF < (State.reset.setI 0xFFE).i.toNat + 2 := by decide
theorem witness_StoreAndLoadRegisters :
    (State.reset.setI 0xFF0).i.toNat + (15 : Reg).val ≤ 0xFFF ∧ 0xFFF < (State.reset.setI 0xFF1).i.toNat + (15 : Reg).val ∧
    (State.reset.setI 0xFFF).i.toNat + (0 : Reg).val ≤ 0xFFF := by decide
theorem witness_StoredBytesAreFetchedNext :
    1 ≤ (1 : Reg).val ∧ ({ State.reset with pc := 0xFFC, i := 0xFFE } : State).i = ({ State.reset with pc := 0xFFC, i := 0xFFE } : State).pc + 2 ∧
    ({ State.reset with pc := 0xFFC, i := 0xFFE } : State).i.toNat + (1 : Reg).val ≤ 0xFFF ∧
    (State.reset.setI 0xFFD).i.toNat + 2 ≤ 0xFFF ∧ (0xFFE : Word).toNat + 1 ≤ 0xFFF := by decide
theorem witness_OutOfRangeAccessFaults :
    0xFFF < (State.reset.setI 0xFFE).i.toNat + 2 ∧ 0xFFF < (State.reset.setI 0xFFF).i.toNat + (1 : Reg).val ∧
    (1 ≤ (1 : Nibble).val ∧ 0xFFF < (State.reset.setI 0x1000).i.toNat + (1 : Nibble).val - 1) ∧
    (1 ≤ (15 : Nibble).val ∧ 0xFFF < (State.reset.setI 0xFF2).i.toNat + (15 : Nibble).val - 1) := by decide

/-! ## Witnesses: display, keypad -/

/-- No row wherever `I` points; the last row at the top of memory; one byte beyond (D-12, D-13, D-14). -/
theorem witness_DrawSpriteFlipsCoveredCells :
    (0 : Nibble).val = 0 ∧ (State.reset.setI 0xFF1).i.toNat + (15 : Nibble).val - 1 ≤ 0xFFF ∧
    (1 ≤ (15 : Nibble).val ∧ 0xFFF < (State.reset.setI 0xFF2).i.toNat + (15 : Nibble).val - 1) := by decide
/-- Cells the glyph of digit 0 covers and does not cover at (0, 0) (S6), and one of them lit. -/
theorem witness_spriteCovers :
    spriteCovers 0 0 5 State.reset 259 ∧ ¬ spriteCovers 0 0 5 State.reset 4 ∧
    spriteCovers 0 0 5 { State.reset with fb := FrameBuffer.clear.flip 259 } 259 ∧
    FrameBuffer.lit ({ State.reset with fb := FrameBuffer.clear.flip 259 } : State).fb 259 = true := by
  refine ⟨⟨4, 3, by decide, by decide, by decide, by decide⟩, ?_, ⟨4, 3, by decide, by decide, by decide, by decide⟩, by decide⟩
  rintro ⟨r, col, hr, hc, hb, h⟩
  simp only [State.reset, State.resetWith, State.readV, Vector.getElem_replicate] at h
  have hr5 : r < 5 := hr
  obtain ⟨rfl, rfl⟩ : r = 0 ∧ col = 4 := by
    have h0 : (0 : Byte).toNat = 0 := rfl
    rw [h0] at h; omega
  exact absurd hb (by decide)
theorem witness_DrawingTwiceRestoresFramebuffer :
    ∃ t, State.reset.i.toNat + (5 : Nibble).val - 1 ≤ 0xFFF ∧ exec (.drw 0 0 5) State.reset = .next t ∧
      t.readV 0 = State.reset.readV 0 :=
  ⟨_, by decide, rfl, by decide⟩
theorem witness_DrawAfterClearShowsTheSprite : (State.reset.setI 0xFF1).i.toNat + (15 : Nibble).val - 1 ≤ 0xFFF := by decide
theorem witness_KeySkips :
    (State.reset.readV 0).toNat = 0 ∧ ((State.reset.writeV 0 15).readV 0).toNat = 15 ∧
    0xF < ((State.reset.writeV 0 16).readV 0).toNat := by decide
theorem witness_WaitForKeyTakesAPressedKey :
    (∀ k < 16, State.reset.keyDown k = false) ∧ (∃ k < 16, (State.reset.setKey 15 true).keyDown k = true) :=
  ⟨by decide, 15, by decide, by decide⟩

end Sys2Proof.Tests
end

section
/-! PROOFS. What one instruction does to the state, said once (`exec_fault`, `exec_runs`, `exec_cases`), and the statements about
the state (10_state.md) that follow from it. -/

namespace Sys2Proof.Machine

variable {i : Instr} {s t u : State}

/-! ## Frames of the state's operations -/

/-- All is unchanged but the registers `rs`, the parts `ps` and the bytes of memory. -/
structure Changes (rs : List Reg) (ps : List Part) (s t : State) : Prop where
  regs : SameRegs rs s t
  parts : SameParts ps s t

theorem SameRegs.trans {rs rs' : List Reg} (h : SameRegs rs s t) (h' : SameRegs rs' t u) : SameRegs (rs ++ rs') s u := by
  intro r hr
  rw [List.mem_append, not_or] at hr
  rw [h' r hr.2, h r hr.1]

/-- What neither of two updates changes, the two together do not. -/
theorem unchanged_trans {α : Type} {p : Part} {ps ps' : List Part} {a b c : α} (h : p ∈ ps ∨ b = a) (h' : p ∈ ps' ∨ c = b) :
    p ∈ ps ++ ps' ∨ c = a := by
  rw [List.mem_append]
  rcases h with h | rfl
  · exact .inl (.inl h)
  · exact h'.imp_left .inr

theorem SameParts.trans {ps ps' : List Part} (h : SameParts ps s t) (h' : SameParts ps' t u) : SameParts (ps ++ ps') s u where
  i := unchanged_trans h.i h'.i
  pc := unchanged_trans h.pc h'.pc
  stack := unchanged_trans h.stack h'.stack
  sp := unchanged_trans h.sp h'.sp
  fb := unchanged_trans h.fb h'.fb
  dt := unchanged_trans h.dt h'.dt
  st := unchanged_trans h.st h'.st
  drawFlag := unchanged_trans h.drawFlag h'.drawFlag
  status := unchanged_trans h.status h'.status
  draws := unchanged_trans h.draws h'.draws
  key := h'.key.trans h.key
  font := h'.font.trans h.font
  env := h'.env.trans h.env
  pacing := h'.pacing.trans h.pacing

namespace Changes

variable {rs rs' : List Reg} {ps ps' : List Part}

/-- One update after another: the registers and the parts of both. -/
theorem trans (h : Changes rs ps s t) (h' : Changes rs' ps' t u) : Changes (rs ++ rs') (ps ++ ps') s u :=
  ⟨h.regs.trans h'.regs, h.parts.trans h'.parts⟩

/-- With memory unchanged, this is the frame of Safety.lean. -/
theorem frame (h : Changes rs ps s t) (hm : t.mem = s.mem) : Frame rs ps s t :=
  ⟨h.regs, fun a => by rw [hm], h.parts⟩

theorem nothing : Changes rs ps s s := ⟨fun _ _ => rfl, by constructor <;> simp⟩

theorem writeV (x : Reg) (b : Byte) : Changes [x] [] s (s.writeV x b) :=
  ⟨fun _ hr => State.readV_writeV_other s b (by simpa using hr), by constructor <;> simp⟩

theorem writeFlag (f : Bool) : Changes [VF] [] s (s.writeFlag f) := writeV VF (flagByte f)

theorem setPc (w : Word) : Changes [] [.pc] s (s.setPc w) := ⟨fun _ _ => rfl, by constructor <;> simp⟩

theorem advance : Changes [] [.pc] s s.advance := setPc _

theorem setI (w : Word) : Changes [] [.i] s (s.setI w) := ⟨fun _ _ => rfl, by constructor <;> simp⟩

theorem setDT (b : Byte) : Changes [] [.dt] s (s.setDT b) := ⟨fun _ _ => rfl, by constructor <;> simp⟩

theorem setST (b : Byte) : Changes [] [.st] s (s.setST b) := ⟨fun _ _ => rfl, by constructor <;> simp⟩

theorem showFb (fb : FrameBuffer) : Changes [] [.fb, .drawFlag] s (s.showFb fb) := ⟨fun _ _ => rfl, by constructor <;> simp⟩

theorem countDraw : Changes [] [.draws] s s.countDraw := ⟨fun _ _ => rfl, by constructor <;> simp⟩

theorem writeBytes (a : Nat) (bs : List Byte) : Changes [] [] s (s.setMem (s.mem.writeBytes a bs)) :=
  ⟨fun _ _ => rfl, by constructor <;> simp⟩

theorem push {w : Word} (h : s.push w = some t) : Changes [] [.stack, .sp] s t := by
  obtain ⟨_, rfl⟩ := State.push_eq_some.1 h
  exact ⟨fun _ _ => rfl, by constructor <;> simp⟩

theorem pop {w : Word} (h : s.pop = some (w, t)) : Changes [] [.sp] s t := by
  obtain ⟨_, _, rfl⟩ := State.pop_eq_some.1 h
  exact ⟨fun _ _ => rfl, by constructor <;> simp⟩

/-- A load of `V0` to `Vx` changes no register above `Vx` (rule R166). -/
theorem loadVs (m : Memory) (base : Nat) (x : Reg) :
    Changes ((List.finRange 16).filter (fun r => r ≤ x)) [] s { s with v := loadVs m base s.v (x.val + 1) } := by
  refine ⟨fun r hr => ?_, by constructor <;> simp⟩
  have hx : ¬ r.val < x.val + 1 := by
    intro h
    exact hr (List.mem_filter.2 ⟨List.mem_finRange r, decide_eq_true (Nat.le_of_lt_succ h)⟩)
  exact (loadVs_getElem m base s.v (x.val + 1) r.isLt).trans (if_neg hx)

end Changes

/-! ## The instructions with more than one outcome, one equation per outcome that is no fault -/

theorem exec_call (nnn : BitVec 12) (h : s.sp.val < 16) :
    exec (.call nnn) s = .next (({ s with
      stack := s.stack.set s.sp.val (s.pc + 2), sp := ⟨s.sp.val + 1, by omega⟩ } : State).setPc (addrZext16 nnn)) := by
  simp only [exec, execCall, State.push_eq_some.2 ⟨h, rfl⟩]

theorem exec_ret (h : 0 < s.sp.val) :
    exec .ret s = .next (({ s with sp := ⟨s.sp.val - 1, by omega⟩ } : State).setPc s.stack[s.sp.val - 1]) := by
  simp only [exec, execRet, State.pop_eq_some.2 ⟨h, rfl, rfl⟩]

theorem exec_drw (x y : Reg) {n : Nibble} (h : s.spriteFits n = true) :
    exec (.drw x y n) s = .next ((s.showFb (plotCells s.fb (s.drawCells x y n)).1).writeFlag
      (plotCells s.fb (s.drawCells x y n)).2).advance := by
  simp only [exec, execDrw, h, if_true]

theorem exec_ldB (x : Reg) (h : s.i.toNat + 2 ≤ 0xFFF) :
    exec (.ldB x) s = .next (s.setMem (s.mem.writeBytes s.i.toNat (bcdDigits (s.readV x)))).advance := by
  simp only [exec, execLdB, State.addressable_iff.2 h, if_true, State.effectiveAddr_zero]

theorem exec_storeRegs {x : Reg} (h : s.i.toNat + x.val ≤ 0xFFF) :
    exec (.storeRegs x) s = .next (s.setMem (s.mem.writeBytes s.i.toNat (s.regsThrough x))).advance := by
  simp only [exec, execStoreRegs, State.addressable_iff.2 h, if_true, State.effectiveAddr_zero]

theorem exec_loadRegs {x : Reg} (h : s.i.toNat + x.val ≤ 0xFFF) :
    exec (.loadRegs x) s = .next ({ s with v := loadVs s.mem s.i.toNat s.v (x.val + 1) } : State).advance := by
  simp only [exec, execLoadRegs, State.addressable_iff.2 h, if_true, State.effectiveAddr_zero]

theorem exec_skp {x : Reg} (h : (s.readV x).toNat ≤ 0xF) :
    exec (.skp x) s = skipIf (s.keyDown (s.readV x).toNat) s := by
  simp only [exec, execSkp, State.keyIndex_eq_some.2 ⟨h, rfl⟩]

theorem exec_sknp {x : Reg} (h : (s.readV x).toNat ≤ 0xF) :
    exec (.sknp x) s = skipIf (!s.keyDown (s.readV x).toNat) s := by
  simp only [exec, execSknp, State.keyIndex_eq_some.2 ⟨h, rfl⟩]

theorem exec_ldVxK_wait (x : Reg) (h : pickKey (Config.keyPick s.draws) s.pressedKeys = none) :
    exec (.ldVxK x) s = .next s := by
  simp only [exec, execLdVxK, h]

theorem exec_ldVxK_key (x : Reg) {k : Nat} (h : pickKey (Config.keyPick s.draws) s.pressedKeys = some k) :
    exec (.ldVxK x) s = .next (s.countDraw.writeV x (BitVec.ofNat 8 k)).advance := by
  simp only [exec, execLdVxK, h, finishReg_eq]

/-! ## When an instruction does not fault (rule R210) -/

/-- A row of rule R210 raises nothing exactly when its condition does not hold. -/
theorem raises_eq_none {c : Prop} [Decidable c] {k : FaultKind} : (if c then some k else none) = none ↔ ¬ c := by
  rw [ite_eq_right_iff]
  exact imp_congr_right fun _ => iff_false_intro (Option.some_ne_none k)

theorem faultOf_call_eq_none {nnn : BitVec 12} : faultOf (.call nnn) s = none ↔ s.sp.val < 16 :=
  raises_eq_none.trans ⟨fun h => Nat.lt_of_le_of_ne (Nat.le_of_lt_succ s.sp.isLt) h, Nat.ne_of_lt⟩

theorem faultOf_ret_eq_none : faultOf .ret s = none ↔ 0 < s.sp.val := raises_eq_none.trans Nat.pos_iff_ne_zero.symm

theorem faultOf_drw_eq_none {x y : Reg} {n : Nibble} : faultOf (.drw x y n) s = none ↔ s.spriteFits n = true :=
  raises_eq_none.trans (by rw [State.spriteFits_iff]; omega)

theorem faultOf_ldB_eq_none {x : Reg} : faultOf (.ldB x) s = none ↔ s.i.toNat + 2 ≤ 0xFFF := raises_eq_none.trans Nat.not_lt

theorem faultOf_storeRegs_eq_none {x : Reg} : faultOf (.storeRegs x) s = none ↔ s.i.toNat + x.val ≤ 0xFFF :=
  raises_eq_none.trans Nat.not_lt

theorem faultOf_loadRegs_eq_none {x : Reg} : faultOf (.loadRegs x) s = none ↔ s.i.toNat + x.val ≤ 0xFFF :=
  raises_eq_none.trans Nat.not_lt

theorem faultOf_skp_eq_none {x : Reg} : faultOf (.skp x) s = none ↔ (s.readV x).toNat ≤ 0xF := raises_eq_none.trans Nat.not_lt

theorem faultOf_sknp_eq_none {x : Reg} : faultOf (.sknp x) s = none ↔ (s.readV x).toNat ≤ 0xF := raises_eq_none.trans Nat.not_lt

/-- An instruction whose fault condition holds halts the machine with its own word on record, and changes nothing else (rules R210,
R212). -/
theorem exec_fault {k : FaultKind} (hf : faultOf i s = some k) : exec i s = .next (s.halt k (encode i)) := by
  cases i
  case call nnn =>
    obtain ⟨h, ⟨⟩⟩ := Option.ite_none_right_eq_some.1 hf
    simp only [exec, execCall, State.push_eq_none.2 h, raise_eq]
  case ret =>
    obtain ⟨h, ⟨⟩⟩ := Option.ite_none_right_eq_some.1 hf
    simp only [exec, execRet, State.pop_eq_none.2 h, raise_eq]
  case drw x y n =>
    obtain ⟨h, ⟨⟩⟩ := Option.ite_none_right_eq_some.1 hf
    exact if_neg (by rw [State.spriteFits_iff]; omega)
  case ldB x | storeRegs x | loadRegs x =>
    obtain ⟨h, ⟨⟩⟩ := Option.ite_none_right_eq_some.1 hf
    exact if_neg (by rw [State.addressable_iff]; omega)
  case skp x =>
    obtain ⟨h, ⟨⟩⟩ := Option.ite_none_right_eq_some.1 hf
    simp only [exec, execSkp, State.keyIndex_eq_none.2 h, raise_eq]
  case sknp x =>
    obtain ⟨h, ⟨⟩⟩ := Option.ite_none_right_eq_some.1 hf
    simp only [exec, execSknp, State.keyIndex_eq_none.2 h, raise_eq]
  all_goals cases hf

/-! ## What an instruction that does not fault does -/

/-- The parts of the state that an instruction may write when it does not fault. -/
def writtenParts : Instr → List Part
  | .cls | .drw _ _ _ => [.fb, .drawFlag, .pc]
  | .ret => [.sp, .pc]
  | .call _ => [.stack, .sp, .pc]
  | .ldI _ | .addI _ | .ldF _ => [.i, .pc]
  | .rnd _ _ | .ldVxK _ => [.draws, .pc]
  | .ldDTVx _ => [.dt, .pc]
  | .ldSTVx _ => [.st, .pc]
  | _ => [.pc]

/-- The bytes that an instruction stores from `I` on: those of `Fx33` and `Fx55` (rules R164, R165), none for the rest. -/
def storedBytes : Instr → State → List Byte
  | .ldB x, s => bcdDigits (s.readV x)
  | .storeRegs x, s => s.regsThrough x
  | _, _ => []

/-- Everything that is the same for all instructions about a run from `s` to `t` without a fault: where `PC` goes, which registers and parts
may differ, and what memory holds. -/
structure Runs (i : Instr) (s t : State) : Prop where
  noFault : faultOf i s = none
  pc : PcRule i s t
  changes : Changes (writtenRegs i) (writtenParts i) s t
  mem : t.mem = s.mem.writeBytes s.i.toNat (storedBytes i s)
  fits : storedBytes i s = [] ∨ s.i.toNat + (storedBytes i s).length ≤ 4096

/-- An instruction that neither faults nor jumps, skips or waits: `PC` moves on by 2 (rule R28). -/
structure MovesOn (i : Instr) (s : State) : Prop where
  noFault : faultOf i s = none
  noTarget : absoluteTarget i s = none
  noSkip : ¬ skipTaken i s
  noWait : ¬ waitsForKey i s

theorem pcRule_of_target {n : Nat} (ha : absoluteTarget i s = some n) (h : t.pc.toNat = n) : PcRule i s t := by
  refine ⟨fun target e => ?_, fun e => ?_⟩
  · rw [ha] at e; cases e; exact h
  · rw [ha] at e; cases e

theorem pcRule_of_skip {c : Bool} (ha : absoluteTarget i s = none) (hw : ¬ waitsForKey i s) (hc : c = true ↔ skipTaken i s) :
    PcRule i s (s.setPc (if c then s.pc + 4 else s.pc + 2)) := by
  refine ⟨fun target e => ?_, fun _ => ⟨fun hs => ?_, fun h => absurd h hw, fun hs _ => ?_⟩⟩
  · rw [ha] at e; cases e
  · rw [hc.2 hs]; rfl
  · rw [eq_false_of_ne_true (mt hc.1 hs)]; rfl

/-- `PC + 2` is what rule R28 says of it. -/
theorem MovesOn.pcRule (hi : MovesOn i s) (h : t.pc = s.pc + 2) : PcRule i s t := by
  refine ⟨fun target e => ?_, fun _ => ⟨fun hs => absurd hs hi.noSkip, fun hw => absurd hw hi.noWait, fun _ _ => h⟩⟩
  rw [hi.noTarget] at e; cases e

/-- The shape of an instruction that stores nothing: its writes, then the one write of `PC`. -/
theorem Runs.of_setPc {ps : List Part} {w : Word} (hf : faultOf i s = none) (hp : PcRule i s (t.setPc w))
    (hc : Changes (writtenRegs i) ps s t) (hw : writtenParts i = ps ++ [.pc]) (hm : t.mem = s.mem)
    (hb : storedBytes i s = []) : Runs i s (t.setPc w) where
  noFault := hf
  pc := hp
  changes := by
    rw [hw, ← List.append_nil (writtenRegs i)]
    exact hc.trans (.setPc w)
  mem := by rw [hb]; exact hm
  fits := .inl hb

/-- A jump or a skip. -/
theorem Runs.of_onlyPc {w : Word} (hf : faultOf i s = none) (hp : PcRule i s (s.setPc w)) (hw : writtenParts i = [.pc])
    (hb : storedBytes i s = []) : Runs i s (s.setPc w) :=
  .of_setPc (ps := []) hf hp .nothing hw rfl hb

theorem Runs.of_movesOn {ps : List Part} (hi : MovesOn i s) (hc : Changes (writtenRegs i) ps s t)
    (hw : writtenParts i = ps ++ [.pc]) (hpc : t.pc = s.pc) (hm : t.mem = s.mem) (hb : storedBytes i s = []) :
    Runs i s t.advance :=
  .of_setPc hi.noFault (hi.pcRule (congrArg (· + 2) hpc)) hc hw hm hb

theorem Runs.of_store (hi : MovesOn i s) (hr : writtenRegs i = []) (hw : writtenParts i = [.pc])
    (hb : s.i.toNat + (storedBytes i s).length ≤ 4096) :
    Runs i s (s.setMem (s.mem.writeBytes s.i.toNat (storedBytes i s))).advance where
  noFault := hi.noFault
  pc := hi.pcRule rfl
  changes := by
    rw [hr, hw]
    exact (Changes.writeBytes _ _).trans .advance
  mem := rfl
  fits := .inr hb

theorem addrZext16_toNat (nnn : BitVec 12) : (addrZext16 nnn).toNat = nnn.toNat :=
  BitVec.toNat_setWidth_of_le (by decide)

theorem jpV0_target_toNat (nnn : BitVec 12) (b : Byte) : (addrZext16 nnn + byteZext16 b).toNat = nnn.toNat + b.toNat := by
  have hb : (byteZext16 b).toNat = b.toNat := BitVec.toNat_setWidth_of_le (by decide)
  have := nnn.isLt
  have := b.isLt
  rw [BitVec.toNat_add, addrZext16_toNat, hb]
  omega

theorem absoluteTarget_ret (h : 0 < s.sp.val) : absoluteTarget .ret s = some (s.stack[s.sp.val - 1]).toNat := by
  have hk : s.sp.val - 1 < s.stack.toList.length := by simp; omega
  have hslot : s.stack.toList.getD (s.sp.val - 1) 0 = s.stack[s.sp.val - 1] := by
    rw [List.getD_eq_getElem _ _ hk, Vector.getElem_toList]
  exact congrArg (fun w : Word => some w.toNat) hslot

theorem waitsForKey_iff {x : Reg} : waitsForKey (.ldVxK x) s ↔ s.pressedKeys = [] := by
  show (∀ k < 16, s.keyDown k = false) ↔ _
  simp only [List.eq_nil_iff_forall_not_mem, State.mem_pressedKeys, not_and, Bool.not_eq_true]

/-- An instruction whose fault condition does not hold answers a next state, by rules R22 and R28 and with the stores of rule R65. -/
theorem exec_runs (hf : faultOf i s = none) : ∃ t, exec i s = .next t ∧ Runs i s t := by
  cases i
  case ldImm | addImm | ldReg | orReg | andReg | xorReg | ldVxDT =>
    exact ⟨_, rfl, .of_movesOn ⟨hf, rfl, id, id⟩ (.writeV _ _) rfl rfl rfl rfl⟩
  case addReg | subReg | shr | subn | shl =>
    exact ⟨_, rfl, .of_movesOn ⟨hf, rfl, id, id⟩ ((Changes.writeFlag _).trans (.writeV _ _)) rfl rfl rfl rfl⟩
  case rnd => exact ⟨_, rfl, .of_movesOn ⟨hf, rfl, id, id⟩ (Changes.countDraw.trans (.writeV _ _)) rfl rfl rfl rfl⟩
  case cls => exact ⟨_, rfl, .of_movesOn ⟨hf, rfl, id, id⟩ (.showFb _) rfl rfl rfl rfl⟩
  case ldI | ldF => exact ⟨_, rfl, .of_movesOn ⟨hf, rfl, id, id⟩ (.setI _) rfl rfl rfl rfl⟩
  case addI => exact ⟨_, rfl, .of_movesOn ⟨hf, rfl, id, id⟩ ((Changes.setI _).trans (.writeFlag _)) rfl rfl rfl rfl⟩
  case ldDTVx => exact ⟨_, rfl, .of_movesOn ⟨hf, rfl, id, id⟩ (.setDT _) rfl rfl rfl rfl⟩
  case ldSTVx => exact ⟨_, rfl, .of_movesOn ⟨hf, rfl, id, id⟩ (.setST _) rfl rfl rfl rfl⟩
  case drw x y n =>
    exact ⟨_, exec_drw x y (faultOf_drw_eq_none.1 hf),
      .of_movesOn ⟨hf, rfl, id, id⟩ ((Changes.showFb _).trans (.writeFlag _)) rfl rfl rfl rfl⟩
  case loadRegs x =>
    exact ⟨_, exec_loadRegs (faultOf_loadRegs_eq_none.1 hf), .of_movesOn ⟨hf, rfl, id, id⟩ (.loadVs _ _ x) rfl rfl rfl rfl⟩
  case ldB x =>
    have h := faultOf_ldB_eq_none.1 hf
    exact ⟨_, exec_ldB x h, .of_store ⟨hf, rfl, id, id⟩ rfl rfl (Nat.succ_le_succ h)⟩
  case storeRegs x =>
    have h := faultOf_storeRegs_eq_none.1 hf
    refine ⟨_, exec_storeRegs h, .of_store ⟨hf, rfl, id, id⟩ rfl rfl ?_⟩
    simp only [storedBytes, State.regsThrough_length]; omega
  case jp nnn =>
    exact ⟨_, rfl, .of_onlyPc hf (pcRule_of_target rfl (addrZext16_toNat nnn)) rfl rfl⟩
  case jpV0 nnn =>
    exact ⟨_, rfl, .of_onlyPc hf (pcRule_of_target rfl (jpV0_target_toNat nnn _)) rfl rfl⟩
  case call nnn =>
    have h := faultOf_call_eq_none.1 hf
    exact ⟨_, exec_call nnn h, .of_setPc hf (pcRule_of_target rfl (addrZext16_toNat nnn))
      (.push (State.push_eq_some.2 ⟨h, rfl⟩)) rfl rfl rfl⟩
  case ret =>
    have h := faultOf_ret_eq_none.1 hf
    exact ⟨_, exec_ret h, .of_setPc hf (pcRule_of_target (absoluteTarget_ret h) rfl)
      (.pop (State.pop_eq_some.2 ⟨h, rfl, rfl⟩)) rfl rfl rfl⟩
  case seImm | sneImm | seReg | sneReg =>
    exact ⟨_, rfl, .of_onlyPc hf (pcRule_of_skip rfl id decide_eq_true_iff) rfl rfl⟩
  case skp x =>
    exact ⟨_, exec_skp (faultOf_skp_eq_none.1 hf), .of_onlyPc hf (pcRule_of_skip rfl id Iff.rfl) rfl rfl⟩
  case sknp x =>
    refine ⟨_, exec_sknp (faultOf_sknp_eq_none.1 hf), .of_onlyPc hf (pcRule_of_skip rfl id ?_) rfl rfl⟩
    exact Iff.of_eq (Bool.not_eq_true' _)
  case ldVxK x =>
    cases hp : pickKey (Config.keyPick s.draws) s.pressedKeys with
    | none =>
      have hw := waitsForKey_iff (x := x).2 (pickKey_eq_none.1 hp)
      refine ⟨s, exec_ldVxK_wait x hp, hf, ?_, .nothing, rfl, .inl rfl⟩
      exact ⟨fun _ e => (nomatch e), fun _ => ⟨False.elim, fun _ => rfl, fun _ h => absurd hw h⟩⟩
    | some k =>
      have hw : ¬ waitsForKey (.ldVxK x) s := fun h =>
        Option.some_ne_none k (hp.symm.trans (pickKey_eq_none.2 (waitsForKey_iff.1 h)))
      exact ⟨_, exec_ldVxK_key x hp,
        .of_movesOn ⟨hf, rfl, id, hw⟩ (Changes.countDraw.trans (.writeV _ _)) rfl rfl rfl rfl⟩

/-- What an instruction can do: halt, changing nothing else, or run. -/
theorem exec_cases (h : exec i s = .next t) :
    (∃ k, faultOf i s = some k ∧ t = s.halt k (encode i)) ∨ Runs i s t := by
  cases hf : faultOf i s with
  | some k => exact .inl ⟨k, rfl, Host.Outcome.next.inj (h.symm.trans (exec_fault hf))⟩
  | none =>
    obtain ⟨u, hu, hr⟩ := exec_runs hf
    rw [Host.Outcome.next.inj (h.symm.trans hu)]
    exact .inr hr

/-! ## What is written only by the instructions that the rules list -/

theorem dt_mem_writtenParts (h : Part.dt ∈ writtenParts i) : ∃ x, i = .ldDTVx x := by
  cases i <;> simp [writtenParts] at h ⊢

theorem st_mem_writtenParts (h : Part.st ∈ writtenParts i) : ∃ x, i = .ldSTVx x := by
  cases i <;> simp [writtenParts] at h ⊢

theorem fb_mem_writtenParts (h : Part.fb ∈ writtenParts i ∨ Part.drawFlag ∈ writtenParts i) :
    i = .cls ∨ ∃ x y n, i = .drw x y n := by
  cases i <;> simp [writtenParts] at h ⊢

theorem sp_mem_writtenParts (h : Part.sp ∈ writtenParts i) : i = .ret ∨ ∃ nnn, i = .call nnn := by
  cases i <;> simp [writtenParts] at h ⊢

theorem stack_mem_writtenParts (h : Part.stack ∈ writtenParts i) : ∃ nnn, i = .call nnn := by
  cases i <;> simp [writtenParts] at h ⊢

theorem i_mem_writtenParts (h : Part.i ∈ writtenParts i) : (∃ nnn, i = .ldI nnn) ∨ ∃ x, i = .addI x ∨ i = .ldF x := by
  cases i <;> simp [writtenParts] at h ⊢

theorem status_not_mem_writtenParts : Part.status ∉ writtenParts i := by
  cases i <;> simp [writtenParts]

theorem storedBytes_eq_nil_or : storedBytes i s = [] ∨ ∃ x, i = .ldB x ∨ i = .storeRegs x := by
  cases i <;> simp [storedBytes]

theorem Runs.status (h : Runs i s t) : t.status = s.status :=
  h.changes.parts.status.resolve_left status_not_mem_writtenParts

theorem Runs.sameMemory_or (h : Runs i s t) : SameMemory s t ∨ ∃ x, i = .ldB x ∨ i = .storeRegs x := by
  refine (storedBytes_eq_nil_or (i := i) (s := s)).imp_left fun hb a => ?_
  rw [h.mem, hb]; rfl

/-- Settles O14: an instruction runs by rule R28 or faults, which leaves `PC`. -/
theorem programCounterFollowsTheTable : Obligations.ProgramCounterFollowsTheTable := by
  intro i s
  refine ⟨fun hf => ?_, fun hf => ?_⟩
  · obtain ⟨t, h, hr⟩ := exec_runs hf
    exact ⟨t, h, hr.pc⟩
  · obtain ⟨k, hk⟩ := Option.ne_none_iff_exists'.1 hf
    exact ⟨_, exec_fault hk, rfl⟩

/-- Settles O22: a timer is among the parts that only one instruction writes. -/
theorem instructionsNeverCountTimers : Obligations.InstructionsNeverCountTimers := by
  intro i s t h
  rcases exec_cases h with ⟨k, -, rfl⟩ | hr
  · exact ⟨.inl rfl, .inl rfl⟩
  · exact ⟨hr.changes.parts.dt.symm.imp_right dt_mem_writtenParts, hr.changes.parts.st.symm.imp_right st_mem_writtenParts⟩

/-- Settles O23: a fault writes the status alone, and a run writes the parts and the bytes listed for its instruction. -/
theorem onlyTheListedInstructionsWrite : Obligations.OnlyTheListedInstructionsWrite := by
  intro i s t h
  rcases exec_cases h with ⟨k, -, rfl⟩ | hr
  · exact ⟨.inl fun _ => rfl, .inl ⟨rfl, rfl⟩, .inl rfl, .inl rfl, .inl rfl, rfl, rfl, rfl, rfl⟩
  · have hp := hr.changes.parts
    refine ⟨hr.sameMemory_or, ?_, hp.sp.symm.imp_right sp_mem_writtenParts, hp.stack.symm.imp_right stack_mem_writtenParts,
      hp.i.symm.imp_right i_mem_writtenParts, hp.key, hp.font, hp.env, hp.pacing⟩
    rcases hp.fb with hw | hfb
    · exact .inr (fb_mem_writtenParts (.inl hw))
    · rcases hp.drawFlag with hw | hflag
      · exact .inr (fb_mem_writtenParts (.inr hw))
      · exact .inl ⟨hfb, hflag⟩

/-- Settles O24: a fault writes no register, and a run only those of rule R22. -/
theorem registersChangeOnlyWhereListed : Obligations.RegistersChangeOnlyWhereListed := by
  intro i s t h
  rcases exec_cases h with ⟨k, -, rfl⟩ | hr
  · exact fun _ _ => rfl
  · exact hr.changes.regs

/-! ## The sound timer and the draw flag are never read (rules R34, R38) -/

/-- The same machine with another sound timer and another draw flag. -/
def State.withSoundAndFlag (b : Byte) (f : Bool) (s : State) : State := { s with st := b, drawFlag := f }

/-- What an instruction run from `s` makes of a sound timer of `b`. -/
def soundAfter : Instr → State → Byte → Byte
  | .ldSTVx x, s, _ => s.readV x
  | _, _, b => b

/-- What an instruction run from `s` makes of a draw flag of `f`. -/
def flagAfter : Instr → State → Bool → Bool
  | .cls, _, _ => true
  | .drw x y n, s, f => if faultOf (.drw x y n) s = none then true else f
  | _, _, f => f

theorem soundAfter_of_ne {b : Byte} (h : ∀ x, i ≠ .ldSTVx x) : soundAfter i s b = b := by
  cases i
  case ldSTVx x => exact absurd rfl (h x)
  all_goals rfl

theorem flagAfter_of_draws {f : Bool} (h : i = .cls ∨ (∃ x y n, i = .drw x y n) ∧ faultOf i s = none) :
    flagAfter i s f = true := by
  rcases h with rfl | ⟨⟨x, y, n, rfl⟩, hf⟩
  · rfl
  · exact if_pos hf

theorem flagAfter_of_not_draws {f : Bool} (hc : i ≠ .cls) (hd : (∀ x y n, i ≠ .drw x y n) ∨ faultOf i s ≠ none) :
    flagAfter i s f = f := by
  cases i
  case cls => exact absurd rfl hc
  case drw x y n => exact if_neg (hd.resolve_left fun h => h x y n rfl)
  all_goals rfl

theorem faultOf_withSoundAndFlag (b : Byte) (f : Bool) : faultOf i (s.withSoundAndFlag b f) = faultOf i s := by
  cases i <;> rfl

/-- An instruction commutes with replacing the sound timer and the draw flag. -/
theorem exec_withSoundAndFlag (b : Byte) (f : Bool) (h : exec i s = .next t) :
    exec i (s.withSoundAndFlag b f) = .next (t.withSoundAndFlag (soundAfter i s b) (flagAfter i s f)) := by
  cases hf : faultOf i s with
  | some k =>
    have hs : soundAfter i s b = b := soundAfter_of_ne (by rintro x rfl; cases hf)
    have hd : flagAfter i s f = f := flagAfter_of_not_draws (by rintro rfl; cases hf) (.inr (by simp [hf]))
    rw [exec_fault ((faultOf_withSoundAndFlag b f).trans hf), ← Host.Outcome.next.inj ((exec_fault hf).symm.trans h), hs, hd]
    rfl
  | none =>
    cases i
    case call nnn =>
      have hsp := faultOf_call_eq_none.1 hf
      rw [exec_call nnn hsp] at h; cases h
      exact exec_call (s := s.withSoundAndFlag b f) nnn hsp
    case ret =>
      have hsp := faultOf_ret_eq_none.1 hf
      rw [exec_ret hsp] at h; cases h
      exact exec_ret (s := s.withSoundAndFlag b f) hsp
    case drw x y n =>
      have hn := faultOf_drw_eq_none.1 hf
      rw [exec_drw x y hn] at h; cases h
      rw [flagAfter_of_draws (.inr ⟨⟨x, y, n, rfl⟩, hf⟩)]
      exact exec_drw (s := s.withSoundAndFlag b f) x y hn
    case ldB x =>
      have hi := faultOf_ldB_eq_none.1 hf
      rw [exec_ldB x hi] at h; cases h
      exact exec_ldB (s := s.withSoundAndFlag b f) x hi
    case storeRegs x =>
      have hi := faultOf_storeRegs_eq_none.1 hf
      rw [exec_storeRegs hi] at h; cases h
      exact exec_storeRegs (s := s.withSoundAndFlag b f) hi
    case loadRegs x =>
      have hi := faultOf_loadRegs_eq_none.1 hf
      rw [exec_loadRegs hi] at h; cases h
      exact exec_loadRegs (s := s.withSoundAndFlag b f) hi
    case skp x =>
      have hk := faultOf_skp_eq_none.1 hf
      rw [exec_skp hk] at h; cases h
      exact exec_skp (s := s.withSoundAndFlag b f) hk
    case sknp x =>
      have hk := faultOf_sknp_eq_none.1 hf
      rw [exec_sknp hk] at h; cases h
      exact exec_sknp (s := s.withSoundAndFlag b f) hk
    case ldVxK x =>
      cases hp : pickKey (Config.keyPick s.draws) s.pressedKeys with
      | none =>
        rw [exec_ldVxK_wait x hp] at h; cases h
        exact exec_ldVxK_wait (s := s.withSoundAndFlag b f) x hp
      | some k =>
        rw [exec_ldVxK_key x hp] at h; cases h
        exact exec_ldVxK_key (s := s.withSoundAndFlag b f) x hp
    all_goals cases h; rfl

/-- Settles O25, by the commutation of an instruction with a replacement of the two; the replacement by their own values says what they
are at the end. -/
theorem soundTimerAndDrawFlagAreNeverRead : Obligations.SoundTimerAndDrawFlagAreNeverRead := by
  intro i s t b f h
  have ht : t = t.withSoundAndFlag (soundAfter i s s.st) (flagAfter i s s.drawFlag) :=
    Host.Outcome.next.inj (h.symm.trans (exec_withSoundAndFlag s.st s.drawFlag h))
  have hst : t.st = soundAfter i s s.st := congrArg State.st ht
  have hflag : t.drawFlag = flagAfter i s s.drawFlag := congrArg State.drawFlag ht
  refine ⟨_, exec_withSoundAndFlag b f h, rfl, ?_, fun hi => soundAfter_of_ne hi, fun hd => ?_, fun hc hd => ?_⟩
  · rintro ⟨x, rfl⟩
    exact hst.symm
  · exact ⟨flagAfter_of_draws hd, hflag.trans (flagAfter_of_draws hd)⟩
  · exact ⟨flagAfter_of_not_draws hc hd, hflag.trans (flagAfter_of_not_draws hc hd)⟩

/-! ## The invariant (rules R45, R212) -/

/-- The invariant is about memory, `PC`, the call stack and the status. -/
theorem Inv.congr (h : Inv s) (hm : t.mem = s.mem) (hpc : t.pc = s.pc) (hk : t.stack = s.stack) (hsp : t.sp = s.sp)
    (hst : t.status = s.status) : Inv t where
  memory := by rw [hm]; exact h.memory
  pcBound := by rw [hpc]; exact h.pcBound
  liveSlots := by simp only [hk, hsp]; exact h.liveSlots
  record := by rw [hpc, hst]; exact h.record

theorem Inv.halt (h : Inv s) (k : FaultKind) (w : Word) : Inv (s.halt k w) where
  memory := h.memory
  pcBound := h.pcBound
  liveSlots := h.liveSlots
  record := by rintro _ _ _ ⟨⟩; rfl

theorem inv_resetWith (font : Vector Byte 75) : Inv (State.resetWith font) where
  memory := Memory.empty_wf font
  pcBound := by rw [show (State.resetWith font).pc = 0x200 from rfl]; decide
  liveSlots _ _ hk := absurd hk (Nat.not_lt_zero _)
  record _ _ _ h := nomatch h

theorem inv_applyReset (s : State) : Inv s.applyReset := (inv_resetWith s.mem.font).congr rfl rfl rfl rfl rfl

theorem inv_loadRom {image : List Byte} (h : Inv s) (hl : loadRom image s = .next t) : Inv t := by
  obtain ⟨hlen, rfl⟩ := loadRom_eq_next hl
  exact { h with memory := Memory.writeBytes_wf h.memory (by omega) }

theorem Runs.memory_wf (h : Runs i s t) (hw : s.mem.wf) : t.mem.wf := by
  rw [h.mem]
  rcases h.fits with hb | hb
  · rw [hb]; exact hw
  · exact Memory.writeBytes_wf hw hb

/-- A jump goes to an address of 12 bits, to one of 12 bits plus a byte, or to a live return address (rule R29). -/
theorem absoluteTarget_le (hi : Inv s) (hf : faultOf i s = none) {n : Nat} (ha : absoluteTarget i s = some n) : n ≤ 0x10FE := by
  cases i
  case jp nnn | call nnn =>
    cases ha
    have := nnn.isLt
    omega
  case jpV0 nnn =>
    cases ha
    have hnnn := nnn.isLt
    have hv0 := (s.readV 0).isLt
    omega
  case ret =>
    have hsp := faultOf_ret_eq_none.1 hf
    rw [absoluteTarget_ret hsp] at ha; cases ha
    exact (hi.liveSlots (s.sp.val - 1) (by omega) (by omega)).trans (by decide)
  all_goals cases ha

/-- An instruction fetched from memory leaves `PC` in the bound of rule R45. -/
theorem Runs.pcBound (h : Runs i s t) (hi : Inv s) (hpc : s.pc.toNat + 1 ≤ 0xFFF) : t.pc.toNat ≤ 0x10FE := by
  obtain ⟨hjump, hrest⟩ := h.pc
  cases ha : absoluteTarget i s with
  | some n =>
    rw [hjump n ha]
    exact absoluteTarget_le hi h.noFault ha
  | none =>
    obtain ⟨hskip, hwait, hnext⟩ := hrest ha
    by_cases hs : skipTaken i s
    · rw [hskip hs]; bv_omega
    · by_cases hw : waitsForKey i s
      · rw [hwait hw]; exact hi.pcBound
      · rw [hnext hs hw]; bv_omega

/-- Every live slot of the call stack after an instruction was live before, or holds the return address of a call (rule R122). -/
theorem exec_liveSlots (h : exec i s = .next t) (hr : Runs i s t) (hi : Inv s) (hpc : s.pc.toNat + 1 ≤ 0xFFF) (k : Nat) (hk : k < 16)
    (hlive : k < t.sp.val) : t.stack[k].toNat ≤ 0x1000 := by
  by_cases hw : Part.sp ∈ writtenParts i
  · rcases sp_mem_writtenParts hw with rfl | ⟨nnn, rfl⟩
    · have hsp := faultOf_ret_eq_none.1 hr.noFault
      rw [exec_ret hsp] at h; cases h
      simp only [State.setPc_stack, State.setPc_sp] at hlive ⊢
      exact hi.liveSlots k hk (by omega)
    · have hsp := faultOf_call_eq_none.1 hr.noFault
      rw [exec_call nnn hsp] at h; cases h
      simp only [State.setPc_stack, State.setPc_sp, Vector.getElem_set] at hlive ⊢
      split
      · bv_omega
      · exact hi.liveSlots k hk (by omega)
  · have hsp := hr.changes.parts.sp.resolve_left hw
    have hstack := hr.changes.parts.stack.resolve_left fun hm => by
      obtain ⟨nnn, rfl⟩ := stack_mem_writtenParts hm
      exact hw (List.mem_cons_of_mem _ List.mem_cons_self)
    simp only [hstack, hsp] at hlive ⊢
    exact hi.liveSlots k hk hlive

/-- An instruction that a running machine has fetched keeps the invariant, whether it runs or faults. -/
theorem exec_keeps_inv (hi : Inv s) (hrun : s.status = .running) (hpc : s.pc.toNat + 1 ≤ 0xFFF) (h : exec i s = .next t) : Inv t := by
  rcases exec_cases h with ⟨k, -, rfl⟩ | hr
  · exact hi.halt k (encode i)
  · refine ⟨hr.memory_wf hi.memory, hr.pcBound hi hpc, exec_liveSlots h hr hi hpc, fun kind word pc hhalt => ?_⟩
    rw [hr.status, hrun] at hhalt; cases hhalt

theorem coreStep_keeps_inv (hi : Inv s) (h : coreStep s = .next t) : Inv t := by
  rcases coreStep_cases h with ⟨-, rfl⟩ | ⟨-, -, rfl⟩ | ⟨w, e, -, -, -, rfl⟩ | ⟨w, i, hrun, hfetch, -, hexec⟩
  · exact hi
  · exact hi.halt _ _
  · exact hi.halt _ _
  · exact exec_keeps_inv hi hrun (State.fetch_eq_some.1 hfetch).1 hexec

theorem takeMove_keeps_inv {m : Move} (hi : Inv s) (h : takeMove m s = .next t) : Inv t := by
  cases m with
  | step => exact coreStep_keeps_inv hi h
  | tick =>
    obtain ⟨d, e, htick⟩ := s.tick_eq
    cases h; rw [htick]
    exact hi.congr rfl rfl rfl rfl rfl
  | setKey k down => cases h; exact hi.congr rfl rfl rfl rfl rfl
  | presentDone => cases h; exact hi.congr rfl rfl rfl rfl rfl
  | reset => cases h; exact inv_applyReset s
  | boot image => exact inv_loadRom (inv_applyReset s) h
  | quit => cases h; exact hi

/-- Settles O21: the line and the pacing are no part of the invariant, and every move keeps it. -/
theorem stepKeepsInvariant : Obligations.StepKeepsInvariant := by
  intro s t hi h
  obtain ⟨ms, p, hs⟩ := nextMove_state s
  have hnext : Inv (nextMove s).2 := by rw [hs]; exact hi.congr rfl rfl rfl rfl rfl
  exact takeMove_keeps_inv hnext h

/-- Settles O20: the reset state of any font has the invariant. -/
theorem resetStateHasInvariant : Obligations.ResetStateHasInvariant := inv_resetWith _

/-! ## Reset, boot and the call stack (rules R31, R43, R250, R254) -/

theorem Memory.unlisted_font (m : Memory) {a : Nat} (h : 5 ≤ a ∧ a < 80) : m.unlisted a = m.font[a - 5] := by
  have hk : a - 5 < m.font.toList.length := by simp; omega
  rw [Memory.unlisted, if_neg (by omega), if_pos h.2, List.getD_eq_getElem _ _ hk, Vector.getElem_toList]

theorem Memory.unlisted_beyond (m : Memory) {a : Nat} (h : 80 ≤ a) : m.unlisted a = 0 := by
  rw [Memory.unlisted, if_neg (by omega), if_neg (by omega)]

/-- Settles O15: the list of cells is empty, so memory reads as the reset contents. -/
theorem resetSetsEveryElement : Obligations.ResetSetsEveryElement := by
  intro s
  refine ⟨_, rfl, fun r => ?_, rfl, rfl, rfl, fun k h => ?_, fun c _ => FrameBuffer.lit_clear c, fun k h => ?_, rfl, rfl, rfl, rfl,
    rfl, rfl, rfl, rfl, rfl, fun a h => ?_, fun a h _ => ?_⟩
  · simp only [State.readV, State.applyReset_v, Vector.getElem_replicate]
  · simp only [State.applyReset_stack, Vector.getElem_replicate]
  · rw [State.keyDown_eq h]; simp only [State.applyReset_key, Vector.getElem_replicate]
  · rw [Memory.read_nil _ rfl, Memory.unlisted_font _ h, State.applyReset_mem]
  · rw [Memory.read_nil _ rfl, Memory.unlisted_beyond _ h]

theorem loadRom_eq {image : List Byte} (h : image.length ≤ 3584) :
    loadRom image s = .next (s.setMem (s.mem.writeBytes 0x200 image)) := if_pos h

/-- Settles O17: a boot is a load into the reset state. -/
theorem bootStartsTheImage : Obligations.BootStartsTheImage := by
  intro image s hl
  exact ⟨_, loadRom_eq hl, rfl, rfl, rfl, fun k hk => Memory.read_writeBytes_inside _ _ hk,
    fun a ha => Memory.read_writeBytes_outside _ ha⟩

/-- Settles O31: a pop reads the slot that the push wrote. -/
theorem pushThenPopRoundTrip : Obligations.PushThenPopRoundTrip := by
  intro w s
  refine ⟨State.push_eq_none, State.pop_eq_none, fun h => ?_⟩
  refine ⟨_, _, State.push_eq_some.2 ⟨h, rfl⟩, rfl, State.pop_eq_some.2 ⟨Nat.succ_pos _, ?_, rfl⟩, rfl⟩
  exact (Vector.getElem_set_self h).symm

end Sys2Proof.Machine
end

section
/-! PROOFS. What a fetch sees of memory, what a store does to a later fetch, and when an access is out of range (20_memory.md). -/

namespace Sys2Proof.Machine

variable {s t : State}

/-! ## Fetch (rule R64) -/

/-- A fetch within memory, as arithmetic on the two bytes. -/
theorem State.fetch_toNat (hp : s.pc.toNat + 1 ≤ 0xFFF) :
    ∃ w, s.fetch = some w ∧ w.toNat = (s.mem.read s.pc.toNat).toNat * 256 + (s.mem.read (s.pc.toNat + 1)).toNat :=
  ⟨_, State.fetch_eq_some.2 ⟨hp, rfl⟩, wordOfBytes_toNat _ _⟩

/-- Settles O7: the fetch that fails is the one whose second byte lies beyond memory. -/
theorem fetchCombinesTwoBytesBigEndian : Obligations.FetchCombinesTwoBytesBigEndian := by
  intro s
  exact ⟨State.fetch_toNat, fun h hrun => coreStep_beyond hrun (State.fetch_eq_none.2 h)⟩

/-! ## Out-of-range accesses (rule R66) -/

/-- Settles O48: each range condition is a row of the fault table, and no row is left for a sprite without rows. -/
theorem outOfRangeAccessFaults : Obligations.OutOfRangeAccessFaults := by
  intro x y n s
  refine ⟨fun h => exec_fault (if_pos h), fun h => ⟨exec_fault (if_pos h), exec_fault (if_pos h)⟩,
    fun hn h => exec_fault (if_pos ⟨hn, h⟩), ?_⟩
  have hfits : s.spriteFits 0 = true := State.spriteFits_iff.2 (.inl rfl)
  exact ⟨_, exec_drw x y hfits, rfl⟩

/-! ## A store is seen by a later fetch (rule R77) -/

/-- The bytes that `Fx55` stores, register by register. -/
theorem State.regsThrough_eq_map (x : Reg) :
    s.regsThrough x = ((List.finRange 16).take (x.val + 1)).map fun r => s.readV r := by
  apply List.ext_getElem
  · simp
  · intro k hk _
    rw [State.regsThrough_getElem x hk]
    simp

theorem byteAfterStore_inside (base : Nat) {bytes : List Byte} {j : Nat} (h : j < bytes.length) :
    byteAfterStore base bytes s (base + j) = bytes[j] := by
  rw [← read_writeBytes_eq_byteAfterStore, Memory.read_writeBytes_inside _ _ h]

/-- A fetch after a run of bytes has been written combines the bytes as the writes have left them. -/
theorem State.fetch_after_store {base : Nat} {bytes : List Byte} (hm : t.mem = s.mem.writeBytes base bytes)
    (hp : t.pc.toNat + 1 ≤ 0xFFF) :
    ∃ w, t.fetch = some w ∧ w.toNat = (byteAfterStore base bytes s t.pc.toNat).toNat * 256 +
      (byteAfterStore base bytes s (t.pc.toNat + 1)).toNat := by
  simp only [← read_writeBytes_eq_byteAfterStore, ← hm]
  exact State.fetch_toNat hp

/-- `Fx55` with `I` at the next instruction: the word fetched next is `V0` and `V1`, if both are stored. -/
theorem fetch_after_exec_storeRegs {x : Reg} (h : exec (.storeRegs x) s = .next t) (hx : 1 ≤ x.val) (hi : s.i = s.pc + 2)
    (hr : s.i.toNat + x.val ≤ 0xFFF) :
    ∃ w, t.fetch = some w ∧ w.toNat = (s.readV 0).toNat * 256 + (s.readV 1).toNat := by
  rw [exec_storeRegs hr] at h
  obtain rfl := Host.Outcome.next.inj h
  have hpc : (s.setMem (s.mem.writeBytes s.i.toNat (s.regsThrough x))).advance.pc = s.i := hi.symm
  obtain ⟨w, hw, hword⟩ := State.fetch_after_store rfl (by rw [hpc]; omega)
  have hfirst : byteAfterStore s.i.toNat (s.regsThrough x) s s.i.toNat = s.readV 0 :=
    (byteAfterStore_inside (j := 0) _ (by simp)).trans (State.regsThrough_getElem x _)
  have hsecond : byteAfterStore s.i.toNat (s.regsThrough x) s (s.i.toNat + 1) = s.readV 1 :=
    (byteAfterStore_inside _ (by simp; omega)).trans (State.regsThrough_getElem x _)
  rw [hpc, hfirst, hsecond] at hword
  exact ⟨w, hw, hword⟩

/-- Settles O47: both stores are runs of bytes written from `I` on, and a fetch reads memory as they have left it. -/
theorem storedBytesAreFetchedNext : Obligations.StoredBytesAreFetchedNext := by
  intro x s
  refine ⟨fun hr => ⟨_, exec_storeRegs hr, rfl, fun p hp => ?_⟩, fun hr => ⟨_, exec_ldB x hr, rfl, fun p hp => ?_⟩,
    fun hx hi hr => ?_⟩
  · rw [← State.regsThrough_eq_map]
    exact State.fetch_after_store rfl hp
  · exact State.fetch_after_store rfl hp
  · obtain ⟨w, hw, hword⟩ := fetch_after_exec_storeRegs (exec_storeRegs hr) hx hi hr
    exact ⟨_, w, exec_storeRegs hr, hw, hword⟩

end Sys2Proof.Machine
end

section
/-! PROOFS. Decoding and encoding (30_encoding.md): the decoder and the encoder are inverse to each other, the words that are rejected, and
the table of rule R96. -/

namespace Sys2Proof

variable {w w' : Word} {i j : Instr} {e : Reject}

/-! ## Decoding an encoding (rules R93, R96) -/

/-- The word of an instruction has the category of its row, and each field of its format reads as the operand put there. -/
theorem decodeWord_encode (i : Instr) : decodeWord (encode i) = .ok i := by
  cases i with
  | cls | ret => rfl
  | jp nnn => rw [encode, decodeWord_cat1 (fieldCat_formatA 0x1 nnn), fieldNNN_formatA]
  | call nnn => simp [encode, decodeWord_cat2]
  | seImm x nn => simp [encode, decodeWord_cat3]
  | sneImm x nn => simp [encode, decodeWord_cat4]
  | seReg x y n => simp [encode, decodeWord_cat5]
  | ldImm x nn => simp [encode, decodeWord_cat6]
  | addImm x nn => simp [encode, decodeWord_cat7]
  | ldReg x y | orReg x y | andReg x y | xorReg x y | addReg x y | subReg x y | shr x y | subn x y | shl x y =>
    rw [encode, decodeWord_cat8 (fieldCat_formatXYN 0x8 ..), decodeCat8, fieldN_formatXYN, fieldX_formatXYN, fieldY_formatXYN]; rfl
  | sneReg x y n => simp [encode, decodeWord_cat9]
  | ldI nnn => simp [encode, decodeWord_catA]
  | jpV0 nnn => simp [encode, decodeWord_catB]
  | rnd x nn => simp [encode, decodeWord_catC]
  | drw x y n => simp [encode, decodeWord_catD]
  | skp x | sknp x => rw [encode, decodeWord_catE (fieldCat_formatXB 0xE ..), decodeCatE, fieldNN_formatXB, fieldX_formatXB]; rfl
  | ldVxDT x | ldVxK x | ldDTVx x | ldSTVx x | addI x | ldF x | ldB x | storeRegs x | loadRegs x =>
    rw [encode, decodeWord_catF (fieldCat_formatXB 0xF ..), decodeCatF, fieldNN_formatXB, fieldX_formatXB]; rfl

/-- Settles O2: the two bytes of a word make the word again, so bytes decode as the word does. -/
theorem decodeInvertsEncode : Obligations.DecodeInvertsEncode := by
  intro i rest
  have hw := decodeWord_encode i
  refine ⟨hw, ?_⟩
  calc decodeBytes (encodeBytes i ++ rest)
      = (decodeWord (wordOfBytes (highByte (encode i)) (lowByte (encode i)))).map (fun j => (j, rest)) := decodeBytes_cons _ _ _
    _ = .ok (i, rest) := by rw [wordOfBytes_of_word, hw]; rfl

/-! ## Encoding a decoded instruction -/

theorem formatXYN_of_selector {cat : BitVec 4} {n : Nibble} (hc : fieldCat w = cat.toFin) (hn : fieldN w = n) :
    formatXYN cat (fieldX w) (fieldY w) n = w := hn ▸ formatXYN_fields hc

theorem formatXB_of_selector {cat : BitVec 4} {nn : Byte} (hc : fieldCat w = cat.toFin) (hs : fieldNN w = nn) :
    formatXB cat (fieldX w) nn = w := hs ▸ formatXB_fields hc

/-- An answer of the decoder is no other instruction than the one it holds. -/
theorem encode_of_answer {r : Except Reject Instr} (hr : r = .ok j) (hj : encode j = w) (h : r = .ok i) : encode i = w := by
  obtain rfl := Except.ok.inj (hr.symm.trans h)
  exact hj

theorem encode_of_decodeCat0 (h : decodeCat0 w = .ok i) : encode i = w := by
  rcases decodeCat0_cases w with ⟨hw, hd⟩ | ⟨hw, hd⟩ | ⟨-, -, hd⟩
  · exact encode_of_answer hd hw.symm h
  · exact encode_of_answer hd hw.symm h
  · cases hd.symm.trans h

theorem encode_of_decodeCat8 (hc : fieldCat w = 0x8) (h : decodeCat8 w = .ok i) : encode i = w := by
  rcases decodeCat8_cases w with ⟨hn, hd⟩ | ⟨hn, hd⟩ | ⟨hn, hd⟩ | ⟨hn, hd⟩ | ⟨hn, hd⟩ | ⟨hn, hd⟩ | ⟨hn, hd⟩ | ⟨hn, hd⟩ | ⟨hn, hd⟩ |
    ⟨-, -, -, -, -, -, -, -, -, hd⟩
  case inr.inr.inr.inr.inr.inr.inr.inr.inr => cases hd.symm.trans h
  all_goals exact encode_of_answer hd (formatXYN_of_selector (cat := 0x8) hc hn) h

theorem encode_of_decodeCatE (hc : fieldCat w = 0xE) (h : decodeCatE w = .ok i) : encode i = w := by
  rcases decodeCatE_cases w with ⟨hs, hd⟩ | ⟨hs, hd⟩ | ⟨-, -, hd⟩
  case inr.inr => cases hd.symm.trans h
  all_goals exact encode_of_answer hd (formatXB_of_selector (cat := 0xE) hc hs) h

theorem encode_of_decodeCatF (hc : fieldCat w = 0xF) (h : decodeCatF w = .ok i) : encode i = w := by
  rcases decodeCatF_cases w with ⟨hs, hd⟩ | ⟨hs, hd⟩ | ⟨hs, hd⟩ | ⟨hs, hd⟩ | ⟨hs, hd⟩ | ⟨hs, hd⟩ | ⟨hs, hd⟩ | ⟨hs, hd⟩ | ⟨hs, hd⟩ |
    ⟨-, -, -, -, -, -, -, -, -, hd⟩
  case inr.inr.inr.inr.inr.inr.inr.inr.inr => cases hd.symm.trans h
  all_goals exact encode_of_answer hd (formatXB_of_selector (cat := 0xF) hc hs) h

/-- Settles O3: in each category the answer holds every field of the word, or the selector that it has matched. -/
theorem encodeInvertsDecode : Obligations.EncodeInvertsDecode := by
  intro w i h
  rcases nibble_cases (fieldCat w) with hc | hc | hc | hc | hc | hc | hc | hc | hc | hc | hc | hc | hc | hc | hc | hc
  · exact encode_of_decodeCat0 ((decodeWord_cat0 hc).symm.trans h)
  · exact encode_of_answer (decodeWord_cat1 hc) (formatA_fields (cat := 0x1) hc) h
  · exact encode_of_answer (decodeWord_cat2 hc) (formatA_fields (cat := 0x2) hc) h
  · exact encode_of_answer (decodeWord_cat3 hc) (formatXB_fields (cat := 0x3) hc) h
  · exact encode_of_answer (decodeWord_cat4 hc) (formatXB_fields (cat := 0x4) hc) h
  · exact encode_of_answer (decodeWord_cat5 hc) (formatXYN_fields (cat := 0x5) hc) h
  · exact encode_of_answer (decodeWord_cat6 hc) (formatXB_fields (cat := 0x6) hc) h
  · exact encode_of_answer (decodeWord_cat7 hc) (formatXB_fields (cat := 0x7) hc) h
  · exact encode_of_decodeCat8 hc ((decodeWord_cat8 hc).symm.trans h)
  · exact encode_of_answer (decodeWord_cat9 hc) (formatXYN_fields (cat := 0x9) hc) h
  · exact encode_of_answer (decodeWord_catA hc) (formatA_fields (cat := 0xA) hc) h
  · exact encode_of_answer (decodeWord_catB hc) (formatA_fields (cat := 0xB) hc) h
  · exact encode_of_answer (decodeWord_catC hc) (formatXB_fields (cat := 0xC) hc) h
  · exact encode_of_answer (decodeWord_catD hc) (formatXYN_fields (cat := 0xD) hc) h
  · exact encode_of_decodeCatE hc ((decodeWord_catE hc).symm.trans h)
  · exact encode_of_decodeCatF hc ((decodeWord_catF hc).symm.trans h)

/-! ## The row of a word (rule R96) -/

/-- The number of the row that the decoder finds for a word. -/
def rowOf (w : Word) : Except Reject Nat := (decodeWord w).map Instr.rowNumber

/-- Two words that agree in the bits that select a row: the category and, in the categories 0, 8, E and F, the selector. -/
structure SameSelector (w w' : Word) : Prop where
  cat : fieldCat w' = fieldCat w
  whole : fieldCat w = 0x0 → w' = w
  nibble : fieldCat w = 0x8 → fieldN w' = fieldN w
  byte : fieldCat w = 0xE ∨ fieldCat w = 0xF → fieldNN w' = fieldNN w

/-! The row that a category-8, E or F word decodes to depends on its selector alone. -/

theorem decodeCat8_row_congr (h : fieldN w' = fieldN w) :
    (decodeCat8 w').map Instr.rowNumber = (decodeCat8 w).map Instr.rowNumber := by
  unfold decodeCat8
  rw [h]
  simp only [apply_ite (Except.map Instr.rowNumber)]
  rfl

theorem decodeCatE_row_congr (h : fieldNN w' = fieldNN w) :
    (decodeCatE w').map Instr.rowNumber = (decodeCatE w).map Instr.rowNumber := by
  unfold decodeCatE
  rw [h]
  simp only [apply_ite (Except.map Instr.rowNumber)]
  rfl

theorem decodeCatF_row_congr (h : fieldNN w' = fieldNN w) :
    (decodeCatF w').map Instr.rowNumber = (decodeCatF w).map Instr.rowNumber := by
  unfold decodeCatF
  rw [h]
  simp only [apply_ite (Except.map Instr.rowNumber)]
  rfl

theorem SameSelector.rowOf_eq (h : SameSelector w w') : rowOf w' = rowOf w := by
  obtain ⟨hcat, hwhole, hnibble, hbyte⟩ := h
  unfold rowOf
  rcases nibble_cases (fieldCat w) with hc | hc | hc | hc | hc | hc | hc | hc | hc | hc | hc | hc | hc | hc | hc | hc
  · rw [hwhole hc]
  · rw [decodeWord_cat1 hc, decodeWord_cat1 (hcat.trans hc)]; rfl
  · rw [decodeWord_cat2 hc, decodeWord_cat2 (hcat.trans hc)]; rfl
  · rw [decodeWord_cat3 hc, decodeWord_cat3 (hcat.trans hc)]; rfl
  · rw [decodeWord_cat4 hc, decodeWord_cat4 (hcat.trans hc)]; rfl
  · rw [decodeWord_cat5 hc, decodeWord_cat5 (hcat.trans hc)]; rfl
  · rw [decodeWord_cat6 hc, decodeWord_cat6 (hcat.trans hc)]; rfl
  · rw [decodeWord_cat7 hc, decodeWord_cat7 (hcat.trans hc)]; rfl
  · rw [decodeWord_cat8 hc, decodeWord_cat8 (hcat.trans hc)]; exact decodeCat8_row_congr (hnibble hc)
  · rw [decodeWord_cat9 hc, decodeWord_cat9 (hcat.trans hc)]; rfl
  · rw [decodeWord_catA hc, decodeWord_catA (hcat.trans hc)]; rfl
  · rw [decodeWord_catB hc, decodeWord_catB (hcat.trans hc)]; rfl
  · rw [decodeWord_catC hc, decodeWord_catC (hcat.trans hc)]; rfl
  · rw [decodeWord_catD hc, decodeWord_catD (hcat.trans hc)]; rfl
  · rw [decodeWord_catE hc, decodeWord_catE (hcat.trans hc)]; exact decodeCatE_row_congr (hbyte (.inl hc))
  · rw [decodeWord_catF hc, decodeWord_catF (hcat.trans hc)]; exact decodeCatF_row_congr (hbyte (.inr hc))

/-! A mask that is all ones on a field keeps it. -/

theorem fieldCat_and {m : Word} (h : fieldCat m = 0xF) : fieldCat (w &&& m) = fieldCat w := by
  have hm : m.extractLsb' 12 4 = BitVec.allOnes 4 := BitVec.toFin_inj.1 h
  rw [fieldCat, BitVec.extractLsb'_and, hm, BitVec.and_allOnes]; rfl

theorem fieldN_and {m : Word} (h : fieldN m = 0xF) : fieldN (w &&& m) = fieldN w := by
  have hm : m.extractLsb' 0 4 = BitVec.allOnes 4 := BitVec.toFin_inj.1 h
  rw [fieldN, BitVec.extractLsb'_and, hm, BitVec.and_allOnes]; rfl

theorem fieldNN_and {m : Word} (h : fieldNN m = 0xFF) : fieldNN (w &&& m) = fieldNN w := by
  have hm : m.extractLsb' 0 8 = BitVec.allOnes 8 := h
  rw [fieldNN, BitVec.extractLsb'_and, hm, BitVec.and_allOnes]; rfl

/-- The mask of a row keeps the category and the selector of the row's category. -/
theorem opcodeTable_masks : ∀ row ∈ opcodeTable, fieldCat row.mask = 0xF ∧ (fieldCat row.bits = 0x0 → row.mask = 0xFFFF) ∧
    (fieldCat row.bits = 0x8 → fieldN row.mask = 0xF) ∧
    (fieldCat row.bits = 0xE ∨ fieldCat row.bits = 0xF → fieldNN row.mask = 0xFF) := by
  decide

theorem opcodeTable_rowOf : ∀ row ∈ opcodeTable, rowOf row.bits = .ok row.number := by
  decide

theorem opcodeTable_numbers : (opcodeTable.map OpcodeRow.number).Nodup := by
  decide

theorem sameSelector_of_match {row : OpcodeRow} (hrow : row ∈ opcodeTable) (h : w &&& row.mask = row.bits) :
    SameSelector w row.bits := by
  obtain ⟨hcat, hwhole, hnibble, hbyte⟩ := opcodeTable_masks row hrow
  have hc : fieldCat row.bits = fieldCat w := h ▸ fieldCat_and hcat
  rw [hc] at hwhole hnibble hbyte
  refine ⟨hc, fun h0 => ?_, fun h8 => h ▸ fieldN_and (hnibble h8), fun hs => h ▸ fieldNN_and (hbyte hs)⟩
  rw [← h, hwhole h0]
  exact BitVec.and_allOnes

open Laws.MatchesRow in
/-- The laws of `MatchesRow`, one per instruction, put together. -/
theorem matchesRow : ∀ i : Instr, Statement i
  | .cls => cls
  | .ret => ret
  | .jp nnn => jp nnn
  | .call nnn => call nnn
  | .seImm x nn => seImm x nn
  | .sneImm x nn => sneImm x nn
  | .seReg x y n => seReg x y n
  | .ldImm x nn => ldImm x nn
  | .addImm x nn => addImm x nn
  | .ldReg x y => ldReg x y
  | .orReg x y => orReg x y
  | .andReg x y => andReg x y
  | .xorReg x y => xorReg x y
  | .addReg x y => addReg x y
  | .subReg x y => subReg x y
  | .shr x y => shr x y
  | .subn x y => subn x y
  | .shl x y => shl x y
  | .sneReg x y n => sneReg x y n
  | .ldI nnn => ldI nnn
  | .jpV0 nnn => jpV0 nnn
  | .rnd x nn => rnd x nn
  | .drw x y n => drw x y n
  | .skp x => skp x
  | .sknp x => sknp x
  | .ldVxDT x => ldVxDT x
  | .ldVxK x => ldVxK x
  | .ldDTVx x => ldDTVx x
  | .ldSTVx x => ldSTVx x
  | .addI x => addI x
  | .ldF x => ldF x
  | .ldB x => ldB x
  | .storeRegs x => storeRegs x
  | .loadRegs x => loadRegs x

theorem rowOf_eq_ok {n : Nat} : rowOf w = .ok n ↔ ∃ i, decodeWord w = .ok i ∧ i.rowNumber = n := by
  unfold rowOf
  cases decodeWord w <;> simp [Except.map]

/-- Settles O4: a word that matches a row has the category and the selector of the row's own `match`, which decodes to that row; and the
word of an instruction matches the one row with the instruction's number. -/
theorem decodeAgreesWithMatchAndMask : Obligations.DecodeAgreesWithMatchAndMask := by
  intro w row hrow
  constructor
  · intro h
    exact rowOf_eq_ok.1 ((sameSelector_of_match hrow h).rowOf_eq.symm.trans (opcodeTable_rowOf row hrow))
  · rintro ⟨i, hd, hn⟩
    obtain ⟨row', hrow', hn', hm⟩ := matchesRow i
    obtain rfl : row' = row := List.inj_on_of_nodup_map opcodeTable_numbers hrow' hrow (hn'.trans hn)
    rwa [encodeInvertsDecode w i hd] at hm

/-! ## Illegal words (rules R97 to R99) -/

theorem fieldCat_eq_iff {c : Fin 16} : fieldCat w = c ↔ w.toNat / 4096 = c.val := by
  rw [Fin.ext_iff, fieldCat_val]

theorem fieldN_eq_iff {n : Nibble} : fieldN w = n ↔ w.toNat % 16 = n.val := by
  rw [Fin.ext_iff, fieldN_val]

theorem fieldNN_eq_iff {nn : Byte} : fieldNN w = nn ↔ w.toNat % 256 = nn.toNat := by
  rw [← BitVec.toNat_inj, fieldNN_toNat]

section
variable {r : Except Reject Instr} {k : Reject} {P : Prop}

/-- An answer that is an instruction is no rejection, so the condition `P` for the rejection `k` has to fail. -/
theorem error_iff_of_ok (hr : r = .ok i) (hP : ¬ P) : r = .error e ↔ e = k ∧ P := by
  simp [hr, hP]

/-- An answer that is the rejection `k` is that one and no other, so the condition `P` for it has to hold. -/
theorem error_iff_of_error (hr : r = .error k) (hP : P) : r = .error e ↔ e = k ∧ P := by
  simp [hr, hP, eq_comm]

end

theorem decodeCat0_error : decodeCat0 w = .error e ↔ e = .category0 ∧ w ≠ 0x00E0 ∧ w ≠ 0x00EE := by
  rcases decodeCat0_cases w with ⟨hw, hd⟩ | ⟨hw, hd⟩ | ⟨h0, h1, hd⟩
  · exact error_iff_of_ok hd fun h => h.1 hw
  · exact error_iff_of_ok hd fun h => h.2 hw
  · exact error_iff_of_error hd ⟨h0, h1⟩

theorem decodeCat8_error :
    decodeCat8 w = .error e ↔ e = .category8 ∧ w.toNat % 16 ∈ [0x8, 0x9, 0xA, 0xB, 0xC, 0xD, 0xF] := by
  rcases decodeCat8_cases w with ⟨hn, hd⟩ | ⟨hn, hd⟩ | ⟨hn, hd⟩ | ⟨hn, hd⟩ | ⟨hn, hd⟩ | ⟨hn, hd⟩ | ⟨hn, hd⟩ | ⟨hn, hd⟩ | ⟨hn, hd⟩ |
    ⟨h0, h1, h2, h3, h4, h5, h6, h7, hE, hd⟩
  case inr.inr.inr.inr.inr.inr.inr.inr.inr =>
    refine error_iff_of_error hd ?_
    rw [← fieldN_val]
    generalize fieldN w = n at *
    decide +revert
  all_goals exact error_iff_of_ok hd (by simp [fieldN_eq_iff.1 hn])

theorem decodeCatE_error : decodeCatE w = .error e ↔ e = .categoryE ∧ w.toNat % 256 ∉ [0x9E, 0xA1] := by
  rcases decodeCatE_cases w with ⟨hs, hd⟩ | ⟨hs, hd⟩ | ⟨h0, h1, hd⟩
  case inr.inr =>
    rw [ne_eq, fieldNN_eq_iff] at h0 h1
    exact error_iff_of_error hd (by simp_all)
  all_goals exact error_iff_of_ok hd (by simp [fieldNN_eq_iff.1 hs])

theorem decodeCatF_error : decodeCatF w = .error e ↔
    e = .categoryF ∧ w.toNat % 256 ∉ [0x07, 0x0A, 0x15, 0x18, 0x1E, 0x29, 0x33, 0x55, 0x65] := by
  rcases decodeCatF_cases w with ⟨hs, hd⟩ | ⟨hs, hd⟩ | ⟨hs, hd⟩ | ⟨hs, hd⟩ | ⟨hs, hd⟩ | ⟨hs, hd⟩ | ⟨hs, hd⟩ | ⟨hs, hd⟩ | ⟨hs, hd⟩ |
    ⟨h0, h1, h2, h3, h4, h5, h6, h7, h8, hd⟩
  case inr.inr.inr.inr.inr.inr.inr.inr.inr =>
    rw [ne_eq, fieldNN_eq_iff] at h0 h1 h2 h3 h4 h5 h6 h7 h8
    exact error_iff_of_error hd (by simp_all)
  all_goals exact error_iff_of_ok hd (by simp [fieldNN_eq_iff.1 hs])

/-- Only the categories 0, 8, E and F reject words. -/
theorem decodeWord_error : decodeWord w = .error e ↔
    (fieldCat w = 0x0 ∧ decodeCat0 w = .error e) ∨ (fieldCat w = 0x8 ∧ decodeCat8 w = .error e) ∨
    (fieldCat w = 0xE ∧ decodeCatE w = .error e) ∨ (fieldCat w = 0xF ∧ decodeCatF w = .error e) := by
  rcases nibble_cases (fieldCat w) with hc | hc | hc | hc | hc | hc | hc | hc | hc | hc | hc | hc | hc | hc | hc | hc <;>
    simp [decodeWord, hc]

/-- Settles O5: each category rejects by its own name, and no other category rejects. -/
theorem illegalWordsAreThoseOfTheRules : Obligations.IllegalWordsAreThoseOfTheRules := by
  intro w
  simp only [ne_eq, decodeWord_error, decodeCat0_error, decodeCat8_error, decodeCatE_error, decodeCatF_error, fieldCat_eq_iff]
  simp

/-! ## Sample words and ignored bits (rules R96, R101) -/

/-- Settles O1: the decoder is run on each word. -/
theorem sampleWordsDecode : Obligations.SampleWordsDecode := by
  unfold Obligations.SampleWordsDecode
  decide

theorem decodeCat8_shr (h : fieldN w = 0x6) : decodeCat8 w = .ok (.shr (fieldX w) (fieldY w)) := by
  simp [decodeCat8, h]

theorem decodeCat8_shl (h : fieldN w = 0xE) : decodeCat8 w = .ok (.shl (fieldX w) (fieldY w)) := by
  simp [decodeCat8, h]

/-- No meaning takes the ignored operand (rule R101). -/
theorem exec_canonical (i : Instr) (s : Machine.State) : Machine.exec i.canonical s = Machine.exec i s := by
  cases i <;> rfl

/-- Settles O6: the category, and in category 8 the last nibble, select the instruction, and no ignored field reaches its meaning. -/
theorem ignoredBitsDoNotMatter : Obligations.IgnoredBitsDoNotMatter :=
  ⟨fun _ h => decodeWord_cat5 (fieldCat_eq_iff.2 h),
    fun _ h => decodeWord_cat9 (fieldCat_eq_iff.2 h),
    fun _ h hn => (decodeWord_cat8 (fieldCat_eq_iff.2 h)).trans (decodeCat8_shr (fieldN_eq_iff.2 hn)),
    fun _ h hn => (decodeWord_cat8 (fieldCat_eq_iff.2 h)).trans (decodeCat8_shl (fieldN_eq_iff.2 hn)),
    fun i s => ⟨(exec_canonical i s).symm, i.canonical_wellFormed⟩⟩

end Sys2Proof
end

section
/-! PROOFS. Control transfer (40_flow.md): jumps, calls, returns and skips, and the step that runs a decoded instruction. -/

namespace Sys2Proof.Machine

variable {i : Instr} {s t : State}

/-! ## Calls and returns (rules R122, R123, R31) -/

/-- What is unchanged outside fewer parts is unchanged outside more. -/
theorem SameParts.mono {ps ps' : List Part} (hps : ps ⊆ ps') (h : SameParts ps s t) : SameParts ps' s t where
  i := h.i.imp_left (@hps _)
  pc := h.pc.imp_left (@hps _)
  stack := h.stack.imp_left (@hps _)
  sp := h.sp.imp_left (@hps _)
  fb := h.fb.imp_left (@hps _)
  dt := h.dt.imp_left (@hps _)
  st := h.st.imp_left (@hps _)
  drawFlag := h.drawFlag.imp_left (@hps _)
  status := h.status.imp_left (@hps _)
  draws := h.draws.imp_left (@hps _)
  key := h.key
  font := h.font
  env := h.env
  pacing := h.pacing

/-- The frame of an instruction that has run and stores nothing. -/
theorem Runs.frame {ps : List Part} (h : Runs i s t) (hb : storedBytes i s = []) (hps : writtenParts i ⊆ ps) :
    Frame (writtenRegs i) ps s t :=
  ⟨h.changes.regs, fun a => by rw [h.mem, hb]; rfl, h.changes.parts.mono hps⟩

/-- A call pushes `PC + 2` and the return pops it again: the slot is written, and `SP` is where it was. -/
theorem exec_ret_after_call {nnn : BitVec 12} (h : s.sp.val < 16) (hcall : exec (.call nnn) s = .next t) :
    exec .ret t = .next (({ s with stack := s.stack.set s.sp.val (s.pc + 2) } : State).setPc (s.pc + 2)) := by
  obtain rfl := Host.Outcome.next.inj ((exec_call nnn h).symm.trans hcall)
  rw [exec_ret (Nat.succ_pos _)]
  simp only [State.setPc_stack, State.setPc_sp, Nat.add_sub_cancel, Vector.getElem_set_self]
  rfl

/-- Settles O32: the state after the return differs from the first in `PC` and in the slot that the call wrote. -/
theorem callThenReturnResumes : Obligations.CallThenReturnResumes := by
  intro nnn s h
  exact ⟨_, _, exec_call nnn h, exec_ret_after_call h (exec_call nnn h), rfl,
    fun _ _ => rfl, fun _ => rfl, by constructor <;> simp⟩

/-- Settles O29: a call that runs writes slot `SP` alone, and on a full stack it is a row of the fault table. -/
theorem callPushesReturnAddress : Obligations.CallPushesReturnAddress := by
  intro nnn s
  refine ⟨fun h => ?_, fun h => exec_fault (if_pos h)⟩
  obtain ⟨t, ht, hr⟩ := exec_runs (faultOf_call_eq_none.2 h)
  have hframe : Frame [] [.pc, .sp, .stack] s t := hr.frame rfl (by simp [writtenParts])
  obtain rfl := Host.Outcome.next.inj ((exec_call nnn h).symm.trans ht)
  refine ⟨_, ht, addrZext16_toNat nnn, rfl, fun k hk => ?_, hframe⟩
  simp only [State.setPc_stack, Vector.getElem_set, eq_comm]

/-- Settles O30: a return that runs reads slot `SP - 1`, and on an empty stack it is a row of the fault table. -/
theorem returnPopsReturnAddress : Obligations.ReturnPopsReturnAddress := by
  intro s
  refine ⟨fun h => ?_, fun h => exec_fault (if_pos h)⟩
  obtain ⟨t, ht, hr⟩ := exec_runs (faultOf_ret_eq_none.2 h)
  have hframe : Frame [] [.pc, .sp] s t := hr.frame rfl (by simp [writtenParts])
  obtain rfl := Host.Outcome.next.inj ((exec_ret h).symm.trans ht)
  refine ⟨_, ht, rfl, fun k hk hsp => ?_, hframe⟩
  simp only [State.setPc_pc, ← hsp, Nat.add_sub_cancel]

/-! ## Jumps and skips (rules R121, R124 to R128) -/

/-- Settles O26: a jump is the one write of `PC`, with its target zero-extended. -/
theorem jumpSetsProgramCounter : Obligations.JumpSetsProgramCounter := by
  intro nnn s
  exact ⟨_, rfl, addrZext16_toNat nnn, (Changes.setPc _).frame rfl⟩

/-- Settles O28: the one write of `PC` is a sum too small to wrap. -/
theorem jumpWithOffsetAddsV0 : Obligations.JumpWithOffsetAddsV0 := by
  intro nnn s
  exact ⟨_, rfl, jpV0_target_toNat nnn (s.readV 0), (Changes.setPc _).frame rfl⟩

/-- An instruction that skips when `c` holds writes `PC` alone. -/
theorem exec_skipWhen {c : Prop} [Decidable c] (he : exec i s = skipIf (decide c) s) :
    ∃ t, exec i s = .next t ∧ t.pc = (if c then s.pc + 4 else s.pc + 2) ∧ Frame [] [.pc] s t := by
  refine ⟨_, he.trans (skipIf_eq _), ?_, (Changes.setPc _).frame rfl⟩
  simp only [State.setPc_pc, decide_eq_true_eq]

/-- An instruction that skips unless `c` holds writes `PC` alone, too: it skips when `¬ c` holds. -/
theorem exec_skipUnless {c : Prop} [Decidable c] (he : exec i s = skipIf (decide (¬ c)) s) :
    ∃ t, exec i s = .next t ∧ t.pc = (if c then s.pc + 2 else s.pc + 4) ∧ Frame [] [.pc] s t := by
  obtain ⟨t, ht, hpc, hframe⟩ := exec_skipWhen he
  exact ⟨t, ht, hpc.trans (ite_not ..), hframe⟩

/-- Settles O33: the two skips have one condition, with opposite effect. -/
theorem immediateSkips : Obligations.ImmediateSkips := by
  intro x nn s
  exact ⟨exec_skipWhen rfl, exec_skipUnless rfl⟩

/-- Settles O34: as on an immediate; no meaning takes the last nibble (rule R101). -/
theorem registerSkips : Obligations.RegisterSkips := by
  intro x y n s
  exact ⟨exec_skipWhen rfl, exec_skipUnless rfl⟩

/-! ## The step (rules R120, R226) -/

/-- The instruction step of a running machine, when the word at `PC` decodes. -/
theorem coreStep_decoded {w : Word} (hrun : s.isRunning) (hf : s.fetch = some w) (hd : decodeWord w = .ok i) :
    coreStep s = exec i s :=
  (coreStep_fetched hrun hf).trans (runWord_ok hd)

/-- Two bytes that decode to an instruction are the two bytes of a word that does. -/
theorem decodeWord_of_decodeBytes {hi lo : Byte} {rest : List Byte} (h : decodeBytes (hi :: lo :: rest) = .ok (i, rest)) :
    decodeWord (wordOfBytes hi lo) = .ok i := by
  rw [decodeBytes_cons] at h
  cases hd : decodeWord (wordOfBytes hi lo) with
  | ok j => rw [hd] at h; cases h; rfl
  | error e => rw [hd] at h; cases h

/-- Settles O8: the line and the pacing choose the move, and an instruction step sees the machine without that move. -/
theorem stepRunsTheDecodedInstruction : Obligations.StepRunsTheDecodedInstruction := by
  intro s i hrun hpc hd
  have hword := decodeWord_of_decodeBytes hd
  have hfetch := State.fetch_eq_some.2 ⟨hpc, rfl⟩
  refine ⟨coreStep_decoded hrun hfetch hword, fun rest h => ?_, fun h hp => ?_, fun n left h hp => ?_⟩
  · exact (step_eq (nextMove_cons h (by decide))).trans (coreStep_decoded (s := s.setEnv rest) hrun hfetch hword)
  · exact (step_eq (nextMove_steps h hp)).trans (coreStep_decoded hrun hfetch hword)
  · exact (step_eq (nextMove_every_succ h hp)).trans
      (coreStep_decoded (s := s.setPacing (.every n left)) hrun hfetch hword)

/-! ## A jump to itself (rule R264) -/

/-- Where a machine stands at a jump to itself is a matter of `PC` and memory alone. -/
theorem State.atSelfJump_congr (hp : t.pc = s.pc) (hm : ∀ a, t.mem.read a = s.mem.read a) (h : s.atSelfJump) : t.atSelfJump := by
  obtain ⟨nnn, hf, ha⟩ := h
  exact ⟨nnn, (State.fetch_congr hp hm).trans hf, ha.trans hp.symm⟩

theorem coreStep_atSelfJump (hrun : s.isRunning) (h : s.atSelfJump) : coreStep s = .next s := by
  obtain ⟨nnn, hf, ha⟩ := h
  calc coreStep s = exec (.jp nnn) s := coreStep_decoded hrun hf (decodeWord_encode _)
    _ = .next (s.setPc s.pc) := congrArg (fun w => Host.Outcome.next (s.setPc w)) ha

/-- Settles O27: the jump writes `PC` with the value it has, and a tick writes the two timers only. -/
theorem selfJumpChangesNothing : Obligations.SelfJumpChangesNothing := by
  intro s hrun h
  refine ⟨coreStep_atSelfJump hrun h, ?_⟩
  obtain ⟨d, e, htick⟩ := s.tick_eq
  rw [htick]
  exact ⟨hrun, State.atSelfJump_congr rfl (fun _ => rfl) h, rfl⟩

end Sys2Proof.Machine
end

section
/-! PROOFS. Register loads, arithmetic, logic, shifts and random (41_alu.md): what the two ends of these instructions leave in the
registers and what they leave unchanged, then the value and the flag of each. -/

namespace Sys2Proof.Machine

variable {i : Instr} {s t : State}

/-! ## The two ends: a result, and a flag then a result (rules R22, R23) -/

/-- What is unchanged outside fewer registers is unchanged outside more. -/
theorem SameRegs.mono {rs rs' : List Reg} (hrs : rs ⊆ rs') (h : SameRegs rs s t) : SameRegs rs' s t :=
  fun r hr => h r fun hmem => hr (hrs hmem)

theorem readV_result (x : Reg) (b : Byte) : ((s.writeV x b).advance).readV x = b := State.readV_writeV_same s x b

theorem frame_result (x : Reg) (b : Byte) : Frame [x] [.pc] s (s.writeV x b).advance :=
  ((Changes.writeV x b).trans .advance).frame rfl

/-- An instruction that ends with a result and no flag: the result in its register, which may be `VF`, and nothing else but `PC`. -/
theorem exec_result {x : Reg} {b : Byte} (he : exec i s = finishReg x b s) :
    ∃ t, exec i s = .next t ∧ t.readV x = b ∧ t.pc = s.pc + 2 ∧ Frame [x] [.pc] s t :=
  ⟨_, he.trans (finishReg_eq x b), readV_result x b, rfl, frame_result x b⟩

/-- An instruction that ends with a flag and a result: the result wins where both go to `VF`. -/
theorem exec_flagResult {x : Reg} {f : Bool} {b : Byte} (he : exec i s = finishRegFlag x f b s) :
    ∃ t, exec i s = .next t ∧ t.readV x = b ∧ (x ≠ VF → t.readV VF = flagByte f) ∧ t.pc = s.pc + 2 ∧
      Frame [x, VF] [.pc] s t := by
  have hwrites : Changes [VF, x] [.pc] s ((s.writeFlag f).writeV x b).advance :=
    ((Changes.writeFlag f).trans (.writeV x b)).trans .advance
  refine ⟨_, he.trans (finishRegFlag_eq x f b), readV_result x b, fun hx => ?_, rfl, ?_⟩
  · rw [State.readV_advance, State.readV_flag_result, if_neg hx.symm, if_pos rfl]
  · exact Changes.frame ⟨hwrites.regs.mono (List.Perm.swap x VF []).subset, hwrites.parts⟩ rfl

/-! ## The flags, as the rules state them (rules R146 to R150) -/

theorem flagByte_decide (c : Prop) [Decidable c] : flagByte (decide c) = if c then 1 else 0 := by
  simp only [flagByte, decide_eq_true_eq]

theorem flagByte_lowBitFlag (a : Byte) : (flagByte (lowBitFlag a)).toNat = a.toNat % 2 := by
  rw [flagByte_toNat, lowBitFlag, ← BitVec.testBit_toNat, Nat.testBit_zero]
  simp only [decide_eq_true_eq]
  split <;> omega

theorem flagByte_highBitFlag (a : Byte) : (flagByte (highBitFlag a)).toNat = a.toNat / 128 := by
  have := a.isLt
  rw [flagByte_toNat, highBitFlag, ← BitVec.testBit_toNat, Nat.testBit_eq_decide_div_mod_eq]
  simp only [decide_eq_true_eq]
  split <;> omega

/-! ## Loads, addition, logic -/

/-- Settles O35: three ends without a flag; only the sum has to be read as a number. -/
theorem loadAddImmediateAndMove : Obligations.LoadAddImmediateAndMove := by
  intro x y nn s
  refine ⟨exec_result rfl, ?_, exec_result rfl⟩
  obtain ⟨t, ht, hsum, hrest⟩ := exec_result (i := .addImm x nn) (s := s) rfl
  exact ⟨t, ht, by rw [hsum, BitVec.toNat_add], hrest⟩

/-- An instruction that ends with a result and no flag, its result known bit by bit. -/
theorem exec_bits {x : Reg} {b : Byte} {bit : Nat → Bool} (he : exec i s = finishReg x b s) (hb : ∀ j, b.getLsbD j = bit j) :
    ∃ t, exec i s = .next t ∧ (∀ j, (t.readV x).getLsbD j = bit j) ∧ t.pc = s.pc + 2 ∧ Frame [x] [.pc] s t := by
  obtain ⟨t, ht, hv, hrest⟩ := exec_result he
  exact ⟨t, ht, fun j => by rw [hv, hb], hrest⟩

/-- Settles O36: the three operations act on each bit by itself. -/
theorem logicIsBitwise : Obligations.LogicIsBitwise := by
  intro x y s
  exact ⟨exec_bits rfl fun _ => BitVec.getLsbD_or, exec_bits rfl fun _ => BitVec.getLsbD_and,
    exec_bits rfl fun _ => BitVec.getLsbD_xor⟩

/-- Settles O37: the flag compares the sum of the numbers, the result is that sum of bytes. -/
theorem addSetsCarry : Obligations.AddSetsCarry := by
  intro x y s
  obtain ⟨t, ht, hsum, hflag, hrest⟩ := exec_flagResult (i := .addReg x y) (s := s) rfl
  exact ⟨t, ht, by rw [hsum, BitVec.toNat_add], fun hx => (hflag hx).trans (flagByte_decide _), hrest⟩

/-! ## Subtraction -/

theorem byte_sub_toNat (a b : Byte) : (a - b).toNat = (a.toNat + 256 - b.toNat) % 256 := by
  have := b.isLt
  rw [BitVec.toNat_sub]
  omega

/-- An instruction that subtracts `b` from `a`, whichever of the two is `Vx`. -/
theorem exec_difference {x : Reg} {a b : Byte} (he : exec i s = finishRegFlag x (noBorrowFlag a b) (a - b) s) :
    ∃ t, exec i s = .next t ∧ (t.readV x).toNat = (a.toNat + 256 - b.toNat) % 256 ∧
      (x ≠ VF → t.readV VF = if b.toNat ≤ a.toNat then 1 else 0) ∧ t.pc = s.pc + 2 ∧ Frame [x, VF] [.pc] s t := by
  obtain ⟨t, ht, hdiff, hflag, hrest⟩ := exec_flagResult he
  exact ⟨t, ht, by rw [hdiff, byte_sub_toNat], fun hx => (hflag hx).trans (flagByte_decide _), hrest⟩

/-- Settles O38: one subtraction, with the operands in either order. -/
theorem subtractSetsNoBorrow : Obligations.SubtractSetsNoBorrow := by
  intro x y s
  exact ⟨exec_difference rfl, exec_difference rfl⟩

/-! ## Shifts -/

/-- Settles O39: a shift by one halves or doubles the number, and the bit shifted out is its remainder or its quotient. -/
theorem shiftsMoveOneBitOut : Obligations.ShiftsMoveOneBitOut := by
  intro x y s
  refine ⟨?_, ?_⟩
  · obtain ⟨t, ht, hhalf, hflag, hrest⟩ := exec_flagResult (i := .shr x y) (s := s) rfl
    refine ⟨t, ht, ?_, fun hx => ?_, hrest⟩
    · rw [hhalf, BitVec.toNat_ushiftRight, Nat.shiftRight_one]
    · rw [hflag hx, flagByte_lowBitFlag]
  · obtain ⟨t, ht, hdouble, hflag, hrest⟩ := exec_flagResult (i := .shl x y) (s := s) rfl
    refine ⟨t, ht, ?_, fun hx => ?_, hrest⟩
    · rw [hdouble, BitVec.toNat_shiftLeft, Nat.shiftLeft_eq, pow_one]
    · rw [hflag hx, flagByte_highBitFlag]

/-! ## Random (rule R152) -/

/-- Settles O40: the mask clears every bit outside it, whatever the byte drawn. -/
theorem randomByteIsMasked : Obligations.RandomByteIsMasked := by
  intro x nn s
  obtain ⟨t, ht, hr⟩ := exec_runs (i := .rnd x nn) (s := s) rfl
  have hframe : Frame [x] [.pc, .draws] s t := hr.frame rfl (by simp [writtenParts])
  obtain rfl := Host.Outcome.next.inj ht
  have hmasked := readV_result (s := s.countDraw) x (Config.randomByte s.draws &&& nn)
  refine ⟨_, rfl, hmasked, ?_, fun hnn => ?_, rfl, rfl, hframe⟩
  · rw [hmasked, BitVec.and_assoc, BitVec.and_not_self]
    exact BitVec.and_zero
  · rw [hmasked, hnn]
    exact BitVec.and_zero

end Sys2Proof.Machine
end

section
/-! PROOFS. Index register and memory transfers (42_index_memory.md): what setting `I`, storing a run of bytes and loading registers leave
behind and what they leave unchanged, then the values of each instruction. -/

namespace Sys2Proof.Machine

variable {i : Instr} {s : State}

/-! ## Setting the index register (rules R161 to R163) -/

theorem byteZext16_toNat (b : Byte) : (byteZext16 b).toNat = b.toNat :=
  BitVec.toNat_setWidth_of_le (by decide)

/-- Five times a byte is too small to wrap. -/
theorem byteZext16_mul_five_toNat (b : Byte) : (byteZext16 b * 5).toNat = b.toNat * 5 := by
  have := b.isLt
  rw [BitVec.toNat_mul, byteZext16_toNat, show (5 : Word).toNat = 5 from rfl]
  omega

/-- An instruction that ends with a value in `I` and no flag. -/
theorem exec_setsI {w : Word} {n : Nat} (he : exec i s = .next (s.setI w).advance) (hw : w.toNat = n) :
    ∃ t, exec i s = .next t ∧ t.i.toNat = n ∧ t.pc = s.pc + 2 ∧ Frame [] [.i, .pc] s t :=
  ⟨_, he, hw, rfl, ((Changes.setI w).trans .advance).frame rfl⟩

/-- Settles O41: both end with a value in `I`, an address or a product that does not wrap. -/
theorem settingTheIndexRegister : Obligations.SettingTheIndexRegister := by
  intro nnn x s
  exact ⟨exec_setsI rfl (addrZext16_toNat nnn), exec_setsI rfl (byteZext16_mul_five_toNat _)⟩

/-- Settles O42: `I` keeps 16 bits of the sum, and the flag compares the sum of the numbers. -/
theorem addToIndexSetsFlag : Obligations.AddToIndexSetsFlag := by
  intro x s
  have hsum : (s.i + byteZext16 (s.readV x)).toNat = (s.i.toNat + (s.readV x).toNat) % 65536 := by
    rw [BitVec.toNat_add, byteZext16_toNat]
  have hwrites := ((Changes.setI (s := s) (s.i + byteZext16 (s.readV x))).trans
    (.writeFlag (pastMemoryFlag s.i (s.readV x)))).trans .advance
  refine ⟨_, rfl, hsum, ?_, rfl, hwrites.frame rfl⟩
  rw [State.readV_advance, State.readV_writeFlag, if_pos rfl]
  exact flagByte_decide _

/-! ## Stores from `I` on (rules R164, R165) -/

/-- An instruction that ends with a run of bytes stored from `I` on: each byte in its place, and nothing else but `PC`. -/
theorem exec_store {bytes : List Byte} (he : exec i s = .next (s.setMem (s.mem.writeBytes s.i.toNat bytes)).advance) :
    ∃ t, exec i s = .next t ∧ (∀ (j : Nat) (h : j < bytes.length), t.mem.read (s.i.toNat + j) = bytes[j]) ∧
      t.pc = s.pc + 2 ∧ StoreFrame s.i.toNat bytes.length s t := by
  have hwrites := (Changes.writeBytes (s := s) s.i.toNat bytes).trans .advance
  exact ⟨_, he, fun j h => Memory.read_writeBytes_inside s.mem _ h, rfl,
    hwrites.regs, fun a ha => Memory.read_writeBytes_outside s.mem ha, hwrites.parts⟩

/-- Settles O43: three bytes stored from `I` on, each digit fitting its byte, or a row of the fault table. -/
theorem storeDecimalDigits : Obligations.StoreDecimalDigits := by
  intro x s
  refine ⟨fun h => ?_, fun h => exec_fault (if_pos h)⟩
  obtain ⟨t, ht, hread, hpc, hframe⟩ := exec_store (exec_ldB x h)
  have := (s.readV x).isLt
  have hundreds : t.mem.read s.i.toNat = BitVec.ofNat 8 ((s.readV x).toNat / 100) := hread 0 (by simp)
  have tens : t.mem.read (s.i.toNat + 1) = BitVec.ofNat 8 ((s.readV x).toNat / 10 % 10) := hread 1 (by simp)
  have units : t.mem.read (s.i.toNat + 2) = BitVec.ofNat 8 ((s.readV x).toNat % 10) := hread 2 (by simp)
  rw [bcdDigits_length] at hframe
  refine ⟨t, ht, ?_, ?_, ?_, hpc, hframe⟩
  · rw [hundreds, BitVec.toNat_ofNat]; omega
  · rw [tens, BitVec.toNat_ofNat]; omega
  · rw [units, BitVec.toNat_ofNat]; omega

/-- Settles O44: the stored bytes are the registers in their order, or it is a row of the fault table. -/
theorem storeRegistersThroughVx : Obligations.StoreRegistersThroughVx := by
  intro x s
  refine ⟨fun h => ?_, fun h => exec_fault (if_pos h)⟩
  obtain ⟨t, ht, hread, hpc, hframe⟩ := exec_store (exec_storeRegs h)
  rw [State.regsThrough_length] at hframe
  refine ⟨t, ht, fun r hr => ?_, hpc, hframe⟩
  have hlength : r.val < (s.regsThrough x).length := by
    rw [State.regsThrough_length]
    exact Nat.lt_succ_of_le hr
  exact (hread r.val hlength).trans (State.regsThrough_getElem x hlength)

/-! ## Loads from `I` on (rule R166) -/

theorem State.readV_loadVs (m : Memory) (base : Nat) (x r : Reg) :
    ({ s with v := loadVs m base s.v (x.val + 1) } : State).readV r = if r ≤ x then m.read (base + r.val) else s.readV r := by
  simp only [State.readV, loadVs_getElem, Fin.le_def, Nat.lt_succ_iff]

/-- Settles O45: the register file after the load, register by register, or a row of the fault table. -/
theorem loadRegistersThroughVx : Obligations.LoadRegistersThroughVx := by
  intro x s
  refine ⟨fun h => ?_, fun h => exec_fault (if_pos h)⟩
  obtain ⟨t, ht, hr⟩ := exec_runs (faultOf_loadRegs_eq_none.2 h)
  have hframe : Frame ((List.finRange 16).filter fun r => r ≤ x) [.pc] s t := hr.frame rfl (List.Subset.refl _)
  obtain rfl := Host.Outcome.next.inj ((exec_loadRegs h).symm.trans ht)
  exact ⟨_, ht, State.readV_loadVs s.mem s.i.toNat x, rfl, hframe⟩

/-- Settles O46: the store leaves `I` where it was, so the load reads back the bytes stored, whatever the registers hold in between. -/
theorem storeThenLoadRestoresRegisters : Obligations.StoreThenLoadRestoresRegisters := by
  intro x s v h
  obtain ⟨t, ht, hstored, -, hframe⟩ := (storeRegistersThroughVx x s).1 h
  have hi : t.i = s.i := hframe.parts.i.resolve_left (by decide)
  obtain ⟨u, hu, hloaded, -⟩ := (loadRegistersThroughVx x { t with v := v }).1 (by rw [← hi] at h; exact h)
  refine ⟨t, u, ht, hu, fun r hr => ?_⟩
  rw [hloaded, if_pos hr, ← hstored r hr, hi]

end Sys2Proof.Machine
end

section
/-! PROOFS. Display (43_display.md): the cells a sprite plots are those it covers, then what a draw leaves in the framebuffer and in `VF`
and what it leaves unchanged. -/

namespace Sys2Proof.Machine

variable {x y : Reg} {n : Nibble} {s t : State}

/-! ## The cells that `Dxyn` plots (rules R180, R182) -/

theorem mem_drawCells {c : Nat} : c ∈ s.drawCells x y n ↔ spriteCovers x y n s c := by
  rw [State.drawCells, mem_spriteCells]
  constructor
  · rintro ⟨r, hr, col, hcol, hbit, hc⟩
    exact ⟨r, col, hr, hcol, hbit, hc⟩
  · rintro ⟨r, col, hr, hcol, hbit, hc⟩
    exact ⟨r, hr, col, hcol, hbit, hc⟩

theorem drawCells_lt (s : State) (x y : Reg) (n : Nibble) : ∀ c ∈ s.drawCells x y n, c < 2048 :=
  fun _ h => spriteCells_lt h

/-- A nibble counts at most 15 rows, so a sprite never wraps onto itself. -/
theorem drawCells_nodup (s : State) (x y : Reg) (n : Nibble) : (s.drawCells x y n).Nodup :=
  spriteCells_nodup _ _ _ _ (by omega)

/-- Which cells are plotted is a matter of `I`, memory and the two coordinates alone. -/
theorem drawCells_congr (hi : t.i = s.i) (hm : SameMemory s t) (hx : t.readV x = s.readV x) (hy : t.readV y = s.readV y) :
    t.drawCells x y n = s.drawCells x y n := by
  simp only [State.drawCells, spriteCells, State.effectiveAddr_zero, hi, hm _, hx, hy]

theorem plotCells_drawCells_lit (fb : FrameBuffer) (c : Nat) :
    (plotCells fb (s.drawCells x y n)).1.lit c = (fb.lit c ^^ decide (c ∈ s.drawCells x y n)) :=
  plotCells_lit fb (drawCells_lt s x y n) (drawCells_nodup s x y n) c

theorem plotCells_lit_of_covers {c : Nat} (fb : FrameBuffer) (h : spriteCovers x y n s c) :
    (plotCells fb (s.drawCells x y n)).1.lit c = !fb.lit c := by
  rw [plotCells_drawCells_lit, decide_eq_true (mem_drawCells.2 h), Bool.xor_true]

theorem plotCells_lit_of_not_covers {c : Nat} (fb : FrameBuffer) (h : ¬ spriteCovers x y n s c) :
    (plotCells fb (s.drawCells x y n)).1.lit c = fb.lit c := by
  rw [plotCells_drawCells_lit, decide_eq_false (mt mem_drawCells.1 h), Bool.xor_false]

/-- A sprite collides exactly when it covers a lit cell. -/
theorem any_drawCells_lit {fb : FrameBuffer} :
    (s.drawCells x y n).any fb.lit = true ↔ ∃ c < 2048, spriteCovers x y n s c ∧ fb.lit c = true := by
  rw [List.any_eq_true]
  constructor
  · rintro ⟨c, hc, hlit⟩
    exact ⟨c, drawCells_lt s x y n c hc, mem_drawCells.1 hc, hlit⟩
  · rintro ⟨c, -, hcovers, hlit⟩
    exact ⟨c, mem_drawCells.2 hcovers, hlit⟩

/-! ## What a draw does (rule R182) -/

/-- The range check of rule R66, as the rule writes it. -/
theorem spriteFits_of_lastRow (h : n.val = 0 ∨ s.i.toNat + n.val - 1 ≤ 0xFFF) : s.spriteFits n = true :=
  State.spriteFits_iff.2 (by omega)

/-- A draw that does not fault plots its cells, leaves the collision in `VF`, and changes nothing else but `PC` and the draw flag. -/
theorem exec_drw_plots (x y : Reg) (h : s.spriteFits n = true) : ∃ t, exec (.drw x y n) s = .next t ∧
    t.fb = (plotCells s.fb (s.drawCells x y n)).1 ∧ t.readV VF = flagByte ((s.drawCells x y n).any s.fb.lit) ∧
    t.drawFlag = true ∧ t.pc = s.pc + 2 ∧ Frame [VF] [.pc, .fb, .drawFlag] s t := by
  obtain ⟨t, ht, hr⟩ := exec_runs (faultOf_drw_eq_none (x := x) (y := y).2 h)
  have hframe : Frame [VF] [.pc, .fb, .drawFlag] s t := hr.frame rfl (by simp [writtenParts])
  obtain rfl := Host.Outcome.next.inj ((exec_drw x y h).symm.trans ht)
  refine ⟨_, ht, rfl, ?_, rfl, rfl, hframe⟩
  rw [State.readV_advance, State.readV_writeFlag, if_pos rfl, plotCells_hit _ (drawCells_lt s x y n) (drawCells_nodup s x y n)]

theorem flagByte_eq_one_iff {b : Bool} : flagByte b = 1 ↔ b = true := by
  cases b <;> decide

theorem flagByte_eq_one_or_zero (b : Bool) : flagByte b = 1 ∨ flagByte b = 0 := by
  cases b <;> decide

/-- Settles O50: the plotted cells are the covered ones, and a sprite past the end of memory is a row of the fault table. -/
theorem drawSpriteFlipsCoveredCells : Obligations.DrawSpriteFlipsCoveredCells := by
  intro x y n s
  refine ⟨fun h => ?_, fun hn h => exec_fault (if_pos ⟨hn, h⟩)⟩
  obtain ⟨t, ht, hfb, hvf, hrest⟩ := exec_drw_plots x y (spriteFits_of_lastRow h)
  refine ⟨t, ht, fun c _ => ?_, fun hlit => ?_, fun hclear => ?_, hrest⟩
  · rw [hfb]
    exact ⟨plotCells_lit_of_covers s.fb, plotCells_lit_of_not_covers s.fb⟩
  · rw [hvf, any_drawCells_lit.2 hlit, flagByte_true]
  · have hnone : ¬ (s.drawCells x y n).any s.fb.lit = true := by
      rw [any_drawCells_lit]
      rintro ⟨c, hc, hcovers, hlit⟩
      rw [hclear c hc hcovers] at hlit
      cases hlit
    rw [hvf, eq_false_of_ne_true hnone, flagByte_false]

/-- Settles O51: the second draw plots the same cells, which undoes the first, and a covered cell is lit then exactly when it was clear at
the start. -/
theorem drawingTwiceRestoresFramebuffer : Obligations.DrawingTwiceRestoresFramebuffer := by
  intro x y n s t h ht hx hy
  obtain ⟨t', ht', hfb, -, -, -, hframe⟩ := exec_drw_plots x y (spriteFits_of_lastRow h)
  obtain rfl := Host.Outcome.next.inj (ht'.symm.trans ht)
  have hi : t'.i = s.i := hframe.parts.i.resolve_left (by decide)
  have hcells : t'.drawCells x y n = s.drawCells x y n := drawCells_congr hi hframe.memory hx hy
  obtain ⟨u, hu, hfb', hvf, -⟩ := exec_drw_plots (s := t') x y (spriteFits_of_lastRow (hi ▸ h))
  rw [hcells] at hfb' hvf
  refine ⟨u, hu, ?_, ?_, hvf ▸ flagByte_eq_one_or_zero _⟩
  · rw [hfb', hfb]
    exact plotCells_twice s.fb (drawCells_lt s x y n) (drawCells_nodup s x y n)
  · rw [hvf, flagByte_eq_one_iff, any_drawCells_lit]
    refine exists_congr fun c => and_congr_right fun _ => and_congr_right fun hcovers => ?_
    rw [hfb, plotCells_lit_of_covers s.fb hcovers, Bool.not_eq_true']

/-! ## Clearing the screen (rule R181) -/

/-- Settles O49: the clear framebuffer is shown, and `PC` moves on. -/
theorem clearScreenClearsEveryCell : Obligations.ClearScreenClearsEveryCell := by
  intro s
  obtain ⟨t, ht, hr⟩ := exec_runs (i := .cls) (s := s) rfl
  have hframe : Frame [] [.pc, .fb, .drawFlag] s t := hr.frame rfl (by simp [writtenParts])
  obtain rfl := Host.Outcome.next.inj ht
  exact ⟨_, rfl, fun c _ => FrameBuffer.lit_clear c, rfl, rfl, hframe⟩

/-- Settles O52: a draw on a clear framebuffer meets no lit cell, and flipping a clear cell lights it. -/
theorem drawAfterClearShowsTheSprite : Obligations.DrawAfterClearShowsTheSprite := by
  intro x y n s h
  obtain ⟨t, ht, hclear, -, -, hframe⟩ := clearScreenClearsEveryCell s
  have hi : t.i = s.i := hframe.parts.i.resolve_left (by decide)
  have hcells : t.drawCells x y n = s.drawCells x y n :=
    drawCells_congr hi hframe.memory (hframe.regs x (by simp)) (hframe.regs y (by simp))
  obtain ⟨u, hu, hflips, -, hvf, -⟩ := (drawSpriteFlipsCoveredCells x y n t).1 (hi ▸ h)
  refine ⟨t, u, ht, hu, hvf fun c hc _ => hclear c hc, fun c hc => ?_⟩
  obtain ⟨hcovered, hother⟩ := hflips c hc
  rw [← mem_drawCells, ← hcells, mem_drawCells]
  by_cases hcovers : spriteCovers x y n t c
  · simp only [hcovered hcovers, hclear c hc, hcovers, Bool.not_false]
  · simp only [hother hcovers, hclear c hc, hcovers, Bool.false_eq_true]

end Sys2Proof.Machine
end

section
/-! PROOFS. Keypad and timers (44_keypad_timers.md): the skips on a key, the wait for a key, and the transfers between a register and a
timer. -/

namespace Sys2Proof.Machine

variable {i : Instr} {s t : State}

/-- The frame of an instruction that runs and stores nothing, from the registers and the parts listed for it. -/
theorem exec_frame {ps : List Part} (he : exec i s = .next t) (hf : faultOf i s = none) (hb : storedBytes i s = [])
    (hps : writtenParts i ⊆ ps) : Frame (writtenRegs i) ps s t := by
  obtain ⟨u, hu, hr⟩ := exec_runs hf
  obtain rfl := Host.Outcome.next.inj (hu.symm.trans he)
  exact hr.frame hb hps

/-! ## Skips on a key (rules R191, R192) -/

/-- A key index in range skips as an immediate does, on the condition that the key is down. -/
theorem exec_skp_key {x : Reg} {k : Nat} (h : k < 16) (hx : (s.readV x).toNat = k) :
    exec (.skp x) s = skipIf (decide (s.key[k] = true)) s := by
  rw [exec_skp (by omega), hx, State.keyDown_eq h, Bool.decide_eq_true]

theorem exec_sknp_key {x : Reg} {k : Nat} (h : k < 16) (hx : (s.readV x).toNat = k) :
    exec (.sknp x) s = skipIf (decide (¬ s.key[k] = true)) s := by
  rw [exec_sknp (by omega), hx, State.keyDown_eq h, decide_not, Bool.decide_eq_true]

/-- Settles O53: in range the two skips have one condition, with opposite effect, and an index above 15 is a row of the fault table. -/
theorem keySkips : Obligations.KeySkips := by
  intro x s
  exact ⟨fun k h hx => ⟨exec_skipWhen (exec_skp_key h hx), exec_skipUnless (exec_sknp_key h hx)⟩,
    fun h => ⟨exec_fault (if_pos h), exec_fault (if_pos h)⟩⟩

/-! ## The wait for a key (rule R193) -/

/-- With a key down, the pick is one that is down, whatever the free value. -/
theorem pickKey_pressedKeys (choice : Nat) (h : ∃ k < 16, s.keyDown k = true) :
    ∃ k, pickKey choice s.pressedKeys = some k ∧ k < 16 ∧ s.keyDown k = true := by
  obtain ⟨l, hl⟩ := h
  cases hp : pickKey choice s.pressedKeys with
  | none =>
    have hmem : l ∈ s.pressedKeys := State.mem_pressedKeys.2 hl
    rw [pickKey_eq_none.1 hp] at hmem
    cases hmem
  | some k => exact ⟨k, rfl, State.mem_pressedKeys.1 (pickKey_mem hp)⟩

/-- Settles O54: nothing can be picked from no keys, and what is picked from some is a key that is down, whose index fits a byte. -/
theorem waitForKeyTakesAPressedKey : Obligations.WaitForKeyTakesAPressedKey := by
  intro x s
  refine ⟨fun h => exec_ldVxK_wait x (pickKey_eq_none.2 (waitsForKey_iff (x := x).1 h)), fun h => ?_⟩
  obtain ⟨k, hpick, hk, hdown⟩ := pickKey_pressedKeys (Config.keyPick s.draws) h
  have ht := exec_ldVxK_key x hpick
  refine ⟨_, k, ht, hk, hdown, ?_, rfl, exec_frame ht rfl rfl (by simp [writtenParts])⟩
  rw [readV_result, BitVec.toNat_ofNat]
  omega

/-! ## Timer transfers (rules R194 to R196) -/

/-- Settles O55: `Fx07` ends with a result, the others with one write of their timer. -/
theorem timerTransfers : Obligations.TimerTransfers := by
  intro x s
  refine ⟨exec_result rfl, ⟨_, rfl, rfl, rfl, ?_⟩, ⟨_, rfl, rfl, rfl, ?_⟩⟩
  · exact exec_frame (i := .ldDTVx x) rfl rfl rfl (by simp [writtenParts])
  · exact exec_frame (i := .ldSTVx x) rfl rfl rfl (by simp [writtenParts])

end Sys2Proof.Machine
end

section
/-! PROOFS. Faults and the halted state (60_exceptions.md), whole transitions, ticks and their interleavings (rules R226 to R229). -/

namespace Sys2Proof.Machine

variable {i : Instr} {s t u : State}

/-! ## Faults (rules R210 to R220) -/

/-- Settles O12: the two outcomes of an instruction are those of the table's two answers. -/
theorem faultsAreExactlyTheTable : Obligations.FaultsAreExactlyTheTable := by
  intro i s hrun
  cases hf : faultOf i s with
  | some k => exact ⟨_, exec_fault hf, rfl⟩
  | none =>
    obtain ⟨t, ht, hr⟩ := exec_runs hf
    exact ⟨t, ht, hr.status.trans hrun⟩

/-- Settles O11: each way for a step to end halted is one `halt` of the state it began in; an instruction halts with its own encoding, the
word it was decoded from. -/
theorem faultsArePreciseAndRecorded : Obligations.FaultsArePreciseAndRecorded := by
  intro s t hrun h hhalted
  rcases coreStep_cases h with ⟨-, rfl⟩ | ⟨-, hf, rfl⟩ | ⟨w, e, -, hf, -, rfl⟩ | ⟨w, i, -, hf, hd, hexec⟩
  · exact absurd hrun hhalted
  · exact ⟨_, _, rfl, .inr ⟨hf, rfl, rfl⟩⟩
  · exact ⟨_, w, rfl, .inl hf⟩
  · rcases exec_cases hexec with ⟨k, -, rfl⟩ | hr
    · exact ⟨k, encode i, rfl, .inl (by rw [encodeInvertsDecode w i hd, hf])⟩
    · exact absurd (hr.status.trans hrun) hhalted

theorem coreStep_illegal {w : Word} {e : Reject} (hrun : s.isRunning) (hf : s.fetch = some w) (hd : decodeWord w = .error e) :
    coreStep s = .next (s.halt .illegalInstruction w) :=
  (coreStep_fetched hrun hf).trans (runWord_error hd)

/-- Settles O10: the word `0x0000` is one of category 0 that is no instruction (rule R97). -/
theorem illegalWordHalts : Obligations.IllegalWordHalts :=
  ⟨fun _ _ _ => coreStep_illegal, fun _ hrun hf => coreStep_illegal hrun hf (e := .category0) (by decide)⟩

/-! ## The halted state (rule R213) -/

/-- Of the moves, only a reset and the boot that begins with one touch the status of a halted machine. -/
theorem takeMove_status_of_halted {m : Move} {kind : FaultKind} {w pc : Word} (hs : s.status = .halted kind w pc)
    (h : takeMove m s = .next t) : t.status = s.status ∨ m = .reset ∨ ∃ image, m = .boot image := by
  cases m with
  | step => cases (coreStep_halted hs).symm.trans h; exact .inl rfl
  | tick => cases h; exact .inl (congrArg State.status (s.tick_halted hs))
  | setKey k down => cases h; exact .inl rfl
  | presentDone => cases h; exact .inl rfl
  | reset => exact .inr (.inl rfl)
  | boot image => exact .inr (.inr ⟨image, rfl⟩)
  | quit => cases h; exact .inl rfl

/-- Settles O13: a move that leaves the status as it is leaves the machine halted. -/
theorem haltedUntilReset : Obligations.HaltedUntilReset := by
  intro s kind word pc hs
  refine ⟨coreStep_halted hs, s.tick_halted hs, hs, fun _ => rfl, rfl, fun _ _ => rfl, ⟨_, rfl, rfl⟩, fun m t h hrun => ?_⟩
  refine (takeMove_status_of_halted hs h).resolve_left fun hst => ?_
  cases hs.symm.trans (hst.symm.trans hrun)

/-! ## The tick (rule R228) -/

/-- Settles O19: each timer counts down on its own, and a machine that does not run is halted. -/
theorem tickCountsBothTimersDown : Obligations.TickCountsBothTimersDown := by
  intro s
  refine ⟨fun hrun => ⟨_, _, s.tick_running hrun, countDown_toNat _, countDown_toNat _⟩, fun hhalted => ?_⟩
  cases hs : s.status with
  | running => exact absurd hs hhalted
  | halted k w pc => exact s.tick_halted hs

/-! ## The next transition (rules R226, R227, R257) -/

theorem step_linedUp {m : Move} {rest : List Move} (hm : m ≠ .quit) (h : s.env = m :: rest) : step s = takeMove m (s.setEnv rest) :=
  step_eq (nextMove_cons h hm)

theorem step_every_zero {n : Nat} (h : s.env = []) (hp : s.pacing = .every n 0) :
    step s = .next (s.setPacing (.every n n)).tick :=
  step_eq (nextMove_every_zero h hp)

theorem step_every_succ {n left : Nat} (h : s.env = []) (hp : s.pacing = .every n (left + 1)) :
    step s = coreStep (s.setPacing (.every n left)) :=
  step_eq (nextMove_every_succ h hp)

theorem step_free {k : Nat} (h : s.env = []) (hp : s.pacing = .free k) (hq : Config.schedule k ≠ .quit) :
    step s = takeMove (Config.schedule k) (s.setPacing (.free (k + 1))) := by
  have hnext := nextMove_free h hp
  rw [if_neg hq] at hnext
  exact step_eq hnext

/-- A `quit` of the free schedule stays the next move, and changes nothing. -/
theorem step_free_quit {k : Nat} (h : s.env = []) (hp : s.pacing = .free k) (hq : Config.schedule k = .quit) : step s = .next s := by
  have hnext := nextMove_free h hp
  rw [if_pos hq, hq, setPacing_self hp] at hnext
  exact step_eq hnext

/-- Settles O9: one lemma for the moves lined up, and one for each thing that the pacing can give. -/
theorem environmentMovesAreWholeTransitions : Obligations.EnvironmentMovesAreWholeTransitions := by
  intro s rest
  refine ⟨fun m => step_linedUp, fun h => step_eq (nextMove_quit h), step_linedUp nofun, step_linedUp nofun,
    fun k b => step_linedUp nofun, step_linedUp nofun, step_linedUp nofun, fun image => step_linedUp nofun,
    fun h hp => step_eq (nextMove_steps h hp), fun n left => step_every_succ, fun n => step_every_zero, fun k h hp => ?_⟩
  split
  · next hq => exact step_free_quit h hp hq
  · next hq => exact step_free h hp hq

/-! ## The line of moves and the pacing are the environment's (log entries 5, 16) -/

theorem exec_environment (h : exec i s = .next t) : t.env = s.env ∧ t.pacing = s.pacing := by
  rcases exec_cases h with ⟨k, -, rfl⟩ | hr
  · exact ⟨rfl, rfl⟩
  · exact ⟨hr.changes.parts.env, hr.changes.parts.pacing⟩

theorem coreStep_environment (h : coreStep s = .next t) : t.env = s.env ∧ t.pacing = s.pacing := by
  rcases coreStep_cases h with ⟨-, rfl⟩ | ⟨-, -, rfl⟩ | ⟨w, e, -, -, -, rfl⟩ | ⟨w, i, -, -, -, hexec⟩
  · exact ⟨rfl, rfl⟩
  · exact ⟨rfl, rfl⟩
  · exact ⟨rfl, rfl⟩
  · exact exec_environment hexec

/-- No move touches what is lined up after it, or the pacing, a reset and a boot among them. -/
theorem takeMove_environment {m : Move} (h : takeMove m s = .next t) : t.env = s.env ∧ t.pacing = s.pacing := by
  cases m with
  | step => exact coreStep_environment h
  | tick =>
    obtain ⟨d, e, htick⟩ := s.tick_eq
    cases h; rw [htick]
    exact ⟨rfl, rfl⟩
  | setKey k down => cases h; exact ⟨rfl, rfl⟩
  | presentDone => cases h; exact ⟨rfl, rfl⟩
  | reset => cases h; exact ⟨rfl, rfl⟩
  | boot image =>
    obtain ⟨-, rfl⟩ := loadRom_eq_next h
    exact ⟨rfl, rfl⟩
  | quit => cases h; exact ⟨rfl, rfl⟩

/-! ## A tick after every `n` steps (rule R229) -/

theorem exec_answers (i : Instr) (s : State) : ∃ t, exec i s = .next t := by
  cases hf : faultOf i s with
  | some k => exact ⟨_, exec_fault hf⟩
  | none => exact (exec_runs hf).imp fun _ ht => ht.1

/-- An instruction step answers a next state in every state: its faults are next states too (rule R212). -/
theorem coreStep_answers (s : State) : ∃ t, coreStep s = .next t := by
  cases hs : s.status with
  | halted k w pc => exact ⟨s, coreStep_halted hs⟩
  | running =>
    cases hf : s.fetch with
    | none => exact ⟨_, coreStep_beyond hs hf⟩
    | some w =>
      cases hd : decodeWord w with
      | error e => exact ⟨_, coreStep_illegal hs hf hd⟩
      | ok i => exact (coreStep_decoded hs hf hd).symm ▸ exec_answers i s

/-- With `left` steps to go, those steps are made and none is left before the tick. -/
theorem runSteps_every (n left : Nat) (h : s.env = []) (hp : s.pacing = .every n left) :
    ∃ t, runSteps left s = .next t ∧ t.env = [] ∧ t.pacing = .every n 0 := by
  induction left generalizing s with
  | zero => exact ⟨s, rfl, h, hp⟩
  | succ left ih =>
    obtain ⟨u, hu⟩ := coreStep_answers (s.setPacing (.every n left))
    obtain ⟨henv, hpacing⟩ := coreStep_environment hu
    have hstep : runSteps (left + 1) s = runSteps left u :=
      congrArg (andThen · (runSteps left)) ((step_every_succ h hp).trans hu)
    rw [hstep]
    exact ih (henv.trans h) hpacing

/-- Settles O57: the state after the steps to go has the pacing that gives a tick. -/
theorem tickComesAfterEveryNSteps : Obligations.TickComesAfterEveryNSteps := by
  intro n left s h hp
  obtain ⟨t, ht, henv, hpacing⟩ := runSteps_every n left h hp
  exact ⟨t, ht, henv, hpacing, step_every_zero henv hpacing⟩

/-! ## The free schedule (rules R227, R229, R257) -/

/-- Outcomes that agree, gone on with alike, agree. -/
theorem andThen_sameOutcome {a b : Result} {f g : State → Result} (h : SameOutcome a b)
    (hfg : ∀ t u, a = .next t → SameOutcome (.next t) (.next u) → SameOutcome (f t) (g u)) :
    SameOutcome (andThen a f) (andThen b g) := by
  match a, b with
  | .next t, .next u => exact hfg t u rfl h
  | .fault _, .fault _ => exact h
  | .refused _, .refused _ => exact h

/-- A machine that has come to a `quit` of the free schedule stays as it is. -/
theorem runSteps_free_quit {k : Nat} (n : Nat) (h : s.env = []) (hp : s.pacing = .free k) (hq : Config.schedule k = .quit) :
    runSteps n s = .next s := by
  induction n with
  | zero => rfl
  | succ n ih => exact (congrArg (andThen · (runSteps n)) (step_free_quit h hp hq)).trans ih

/-- The machine that follows the free schedule from its `k`-th move on agrees with the same machine, in any environment, that is given those
moves from outside. -/
theorem runSteps_free_sameOutcome (n k : Nat) (e : List Move) (p : Pacing) (h : s.env = []) (hp : s.pacing = .free k) :
    SameOutcome (runSteps n s) (runOn (fun j => Config.schedule (k + j)) n (s.inEnvironment e p)) := by
  induction n generalizing k s e p with
  | zero => exact sameOutcome_next_iff.2 ⟨e, p, rfl⟩
  | succ n ih =>
    unfold runOn
    split
    · next hq =>
        rw [runSteps_free_quit (n + 1) h hp hq]
        exact sameOutcome_next_iff.2 ⟨e, p, rfl⟩
    · next hq =>
        rw [runSteps, step_free h hp hq]
        refine andThen_sameOutcome (takeMove_sameOutcome e p _ (s.setPacing (.free (k + 1)))) fun t u ht htu => ?_
        obtain ⟨henv, hpacing⟩ := takeMove_environment ht
        obtain ⟨e', p', rfl⟩ := sameOutcome_next_iff.1 htu
        have hrest : (fun j => Config.schedule (k + (j + 1))) = fun j => Config.schedule (k + 1 + j) :=
          funext fun j => by rw [Nat.add_right_comm, Nat.add_assoc]
        rw [hrest]
        exact ih (k + 1) e' p' (henv.trans h) hpacing

/-- Settles O56: the machine in its own environment is one of those that the simulation is about. -/
theorem freePacingFollowsTheSchedule : Obligations.FreePacingFollowsTheSchedule :=
  fun n k s h hp => runSteps_free_sameOutcome n k s.env s.pacing h hp

/-! ## Timers under a fair interleaving (rules R228, R229, R264) -/

/-- From `s` to `t` the machine has kept its `PC`, idles at a self-jump, and has counted both timers down by `c` ticks. -/
structure IdlesFor (c : Nat) (s t : State) : Prop where
  running : t.isRunning
  selfJump : t.atSelfJump
  pc : t.pc = s.pc
  dt : t.dt.toNat = s.dt.toNat - c
  st : t.st.toNat = s.st.toNat - c

theorem IdlesFor.refl (hrun : s.isRunning) (h : s.atSelfJump) : IdlesFor 0 s s := ⟨hrun, h, rfl, rfl, rfl⟩

theorem IdlesFor.trans {c d : Nat} (h : IdlesFor c s t) (h' : IdlesFor d t u) : IdlesFor (c + d) s u where
  running := h'.running
  selfJump := h'.selfJump
  pc := h'.pc.trans h.pc
  dt := by rw [h'.dt, h.dt, Nat.sub_sub]
  st := by rw [h'.st, h.st, Nat.sub_sub]

/-- A byte that has been counted down 255 times is zero. -/
theorem byte_eq_zero_of_countdown {a b : Byte} (h : b.toNat = a.toNat - 255) : b = 0 := by
  bv_omega

theorem Move.ne_quit_of_keepsRunning {m : Move} (h : m.keepsRunning = true) : m ≠ .quit := by
  rintro rfl
  cases h

/-- A move that leaves the program running leaves it idling, and a tick alone counts. -/
theorem takeMove_idles {m : Move} (hm : m.keepsRunning = true) (hrun : s.isRunning) (h : s.atSelfJump) :
    ∃ t, takeMove m s = .next t ∧ IdlesFor (if m = .tick then 1 else 0) s t := by
  cases m with
  | step => exact ⟨s, coreStep_atSelfJump hrun h, .refl hrun h⟩
  | tick =>
    refine ⟨_, congrArg Host.Outcome.next (s.tick_running hrun), hrun, State.atSelfJump_congr rfl (fun _ => rfl) h, rfl, ?_, ?_⟩
    · exact countDown_toNat s.dt
    · exact countDown_toNat s.st
  | setKey k down => exact ⟨_, rfl, hrun, State.atSelfJump_congr rfl (fun _ => rfl) h, rfl, rfl, rfl⟩
  | presentDone => exact ⟨_, rfl, hrun, State.atSelfJump_congr rfl (fun _ => rfl) h, rfl, rfl, rfl⟩
  | reset | boot | quit => cases hm

/-- After `n` moves the timers have been counted down once for each tick among them. -/
theorem runOn_idles (σ : Nat → Move) (n : Nat) (hσ : ∀ j, (σ j).keepsRunning = true) (hrun : s.isRunning) (h : s.atSelfJump) :
    ∃ t, runOn σ n s = .next t ∧ IdlesFor (Nat.count (fun j => σ j = .tick) n) s t := by
  induction n generalizing σ s with
  | zero => exact ⟨s, rfl, .refl hrun h⟩
  | succ n ih =>
    obtain ⟨u, hu, hidle⟩ := takeMove_idles (hσ 0) hrun h
    obtain ⟨t, ht, hidle'⟩ := ih (fun j => σ (j + 1)) (fun j => hσ (j + 1)) hidle.running hidle.selfJump
    refine ⟨t, ?_, ?_⟩
    · rw [runOn, if_neg (Move.ne_quit_of_keepsRunning (hσ 0)), hu]
      exact ht
    · rw [Nat.count_succ', Nat.add_comm]
      exact hidle.trans hidle'

/-- However many ticks are asked for, a fair interleaving makes that many in finitely many moves. -/
theorem Fair.exists_count_tick {σ : Nat → Move} (h : Fair σ) (c : Nat) : ∃ n, Nat.count (fun j => σ j = .tick) n = c := by
  refine Nat.surjective_count_of_infinite_setOfPred (Set.infinite_of_forall_exists_gt fun k => ?_) c
  obtain ⟨-, j, hj, htick⟩ := h (k + 1)
  exact ⟨j, htick, hj⟩

/-- Settles O58: a byte holds at most 255, and that many ticks come. -/
theorem fairTicksRunTimersDown : Obligations.FairTicksRunTimersDown := by
  intro σ s hfair hσ hrun h
  obtain ⟨n, hn⟩ := hfair.exists_count_tick 255
  obtain ⟨t, ht, hidle⟩ := runOn_idles σ n hσ hrun h
  rw [hn] at hidle
  exact ⟨n, t, ht, byte_eq_zero_of_countdown hidle.dt, byte_eq_zero_of_countdown hidle.st, hidle.pc, hidle.running⟩

end Sys2Proof.Machine
end

section
/-! PROOFS. What the host writes: the image of `load_rom` and the key slot of `set_key` (70_reset_and_hazards.md). -/

namespace Sys2Proof.Machine

variable {s : State}

/-! ## The image (rule R253) -/

theorem loadRom_eq_refused {image : List Byte} (h : 3584 < image.length) :
    loadRom image s = .refused (.imageTooLong image.length) := if_neg (Nat.not_le.2 h)

/-- Settles O16: the load is one write of the image at `0x200`, which reads back inside and is not seen outside. -/
theorem loadRomCopiesTheImage : Obligations.LoadRomCopiesTheImage := by
  intro image s
  refine ⟨fun hl => ⟨_, loadRom_eq hl, ?_, ?_, rfl, ?_⟩, loadRom_eq_refused⟩
  · exact fun k hk => Memory.read_writeBytes_inside _ _ hk
  · exact fun a ha => Memory.read_writeBytes_outside _ ha
  · exact Memory.writeBytes_font _ _ _

/-! ## The key slot (rules R37, R255) -/

/-- A slot beyond the sixteen reads as released before and after, so the rule needs no bound on `j`. -/
theorem State.keyDown_setKey (k : Fin 16) (b : Bool) (j : Nat) :
    (s.setKey k b).keyDown j = if j = k.val then b else s.keyDown j := by
  have hk : k.val < s.key.toList.length := by rw [Vector.length_toList]; exact k.isLt
  simp only [State.keyDown, State.setKey_key, Vector.toList_set, List.getD_eq_getElem?_getD]
  split
  · next hj => rw [hj, List.getElem?_set_self hk, Option.getD_some]
  · next hj => rw [List.getElem?_set_ne (Ne.symm hj)]

/-- Settles O18: the move is `setKey`, which replaces the keypad alone. -/
theorem setKeyWritesOneSlot : Obligations.SetKeyWritesOneSlot := by
  intro k b s
  refine ⟨s.setKey k b, rfl, ?_, fun j hj => ?_, rfl⟩
  · rw [State.keyDown_setKey, if_pos rfl]
  · rw [State.keyDown_setKey, if_neg hj]

end Sys2Proof.Machine
end
